-- ==== Sys2Proof/Word.lean ====
section
/-! DEFINITION. The words and small records of the block: command word, response word, byte beat, pixel, palette
entry, dictionary row, and the closed sets of names (opcodes, mirror modes, phase). -/

namespace Sys2Proof

/-- A command word `CW` (R62): 64 bits, opcode byte in bits 63:56, operands in bits 55:0. -/
abbrev CommandWord := BitVec 64

/-- A word of the response stream `RSP` (R72, R74). -/
abbrev ResponseWord := BitVec 64

/-- A beat of the byte port `OUT` (R76): data in bits 7:0, `SB_LAST` in bit 8, `LAST` in bit 9. -/
abbrev Beat := BitVec 10

/-- A symbol of the compressor's 256-symbol alphabet (R146), and any other unsigned byte operand (R69). -/
abbrev Symbol := BitVec 8

/-- A code of the LZW code space 0..4095 (R46). -/
abbrev Code := BitVec 12

/-- A cell of the visited bitmap: the bit number `y·256 + x` (R20, R53). -/
abbrev Cell := BitVec 16

/-- A pixel `(r, g, b, a)` of four 8-bit channels (R10). -/
structure Pixel where
  r : BitVec 8
  g : BitVec 8
  b : BitVec 8
  a : BitVec 8
  deriving DecidableEq, Repr

/-- A palette entry, the triple `(R, G, B)` (R41, R79). -/
structure Rgb where
  r : BitVec 8
  g : BitVec 8
  b : BitVec 8
  deriving DecidableEq, Repr

/-- The palette ROM's contents: 256 entries of 24 bits (R16, R23). -/
abbrev Palette := Vector Rgb 256

/-- One row of the dictionary in its table form (R52): the string of code `pcode` followed by the symbol `sym` has the
code `code`. -/
structure DictRow where
  pcode : Code
  sym   : Symbol
  code  : Code
  deriving DecidableEq, Repr

/-- A point `(x, y)`, column and row, in exact integers (R8, R9, R105). -/
structure Point where
  x : Int
  y : Int
  deriving DecidableEq, Repr

/-- The seven mirror modes of `MODE` (R18, R71). The eighth encoding is reserved and is no mode. -/
inductive MirrorMode where
  | none
  | horizontal
  | vertical
  | both
  | central
  | diagonal
  | antidiagonal
  deriving DecidableEq, Repr

/-- `PHASE` (R16, R24): whether an encode is open. -/
inductive Phase where
  | idle
  | active
  deriving DecidableEq, Repr

/-- The eleven assigned opcodes (R63). -/
inductive Opcode where
  | symSetdim
  | symSetmode
  | symMap
  | bldVclr
  | bldLighten
  | bldDarken
  | qntQuant
  | qntPalrd
  | lzwStart
  | lzwPut
  | lzwFinish
  deriving DecidableEq, Repr

/-- What the quantizer's fast-path test compares: the open parameter `QFAST` (R7, R129). -/
inductive QFast where
  | inputExact
  | always
  deriving DecidableEq, Repr

/-- The width of the END code: the open parameter `END_WIDTH_RULE` (R7, R159). -/
inductive EndWidthRule where
  | insertTime
  | emitTime
  deriving DecidableEq, Repr

/-- An event of the environment between two steps (R193): a command word presented on the command port, or the
assertion of reset (R200). -/
inductive HostEvent where
  | command (cw : CommandWord)
  | reset
  deriving DecidableEq, Repr

end Sys2Proof
end

