-- ==== Sys2Proof/Syntax.lean ====
section
/-! DEFINITION. The eleven commands, one constructor per row of spec/opcode_table.json (R63), with their operand fields
(R64). -/

namespace Sys2Proof

/-- A command with its operand fields as the command word carries them (R64). -/
inductive Instr where
  /-- `SYM.SETDIM`: `WREQ`, `HREQ`, signed (R92). -/
  | symSetdim (wreq hreq : BitVec 16)
  /-- `SYM.SETMODE`: `M` (R94). -/
  | symSetmode (m : BitVec 3)
  /-- `SYM.MAP`: `X`, `Y`, signed (R96). -/
  | symMap (x y : BitVec 16)
  /-- `BLD.VCLR` (R112). -/
  | bldVclr
  /-- `BLD.LIGHTEN`: cell `CX`, `CY` and packed pixel `PIX` (R114). -/
  | bldLighten (cx cy : BitVec 8) (pix : BitVec 32)
  /-- `BLD.DARKEN`: cell `CX`, `CY` and packed pixel `PIX` (R115). -/
  | bldDarken (cx cy : BitVec 8) (pix : BitVec 32)
  /-- `QNT.QUANT`: packed pixel `PIX` (R126). -/
  | qntQuant (pix : BitVec 32)
  /-- `QNT.PALRD`: palette index `IDX` (R136). -/
  | qntPalrd (idx : BitVec 8)
  /-- `LZW.START` (R153). -/
  | lzwStart
  /-- `LZW.PUT`: the symbol `S` (R155). -/
  | lzwPut (sym : Symbol)
  /-- `LZW.FINISH` (R160). -/
  | lzwFinish
  deriving DecidableEq, Repr

/-- The opcode of a command (R63). -/
def Instr.opcode : Instr → Opcode
  | .symSetdim _ _ => .symSetdim
  | .symSetmode _ => .symSetmode
  | .symMap _ _ => .symMap
  | .bldVclr => .bldVclr
  | .bldLighten _ _ _ => .bldLighten
  | .bldDarken _ _ _ => .bldDarken
  | .qntQuant _ => .qntQuant
  | .qntPalrd _ => .qntPalrd
  | .lzwStart => .lzwStart
  | .lzwPut _ => .lzwPut
  | .lzwFinish => .lzwFinish

end Sys2Proof
end

