-- ==== Sys2Proof/Decode.lean ====
section
/-! DEFINITION. Decoding a command word (R62 to R67), total, rejecting by name; then the encoder, written from the same
operand layouts (R64). -/

namespace Sys2Proof

/-- Why a word decodes to no command (R182(a), R182(b)); both are refused with `ERR_RESERVED`. -/
inductive Reject where
  /-- The opcode byte is none of the eleven of R63 (R66). -/
  | reservedOpcode
  /-- A reserved operand bit of the opcode's row is 1 (R65). -/
  | reservedBits
  deriving DecidableEq, Repr

/-- The opcode byte `OP` = `CW[63:56]` (R62). -/
def opByte (cw : CommandWord) : BitVec 8 := cw.extractLsb' 56 8

/-- The opcode map (R63). -/
def Opcode.byte : Opcode → BitVec 8
  | .symSetdim => 0x10#8
  | .symSetmode => 0x11#8
  | .symMap => 0x12#8
  | .bldVclr => 0x20#8
  | .bldLighten => 0x21#8
  | .bldDarken => 0x22#8
  | .qntQuant => 0x30#8
  | .qntPalrd => 0x31#8
  | .lzwStart => 0x40#8
  | .lzwPut => 0x41#8
  | .lzwFinish => 0x42#8

/-- The opcodes, in the table's order. -/
def Opcode.all : List Opcode :=
  [.symSetdim, .symSetmode, .symMap, .bldVclr, .bldLighten, .bldDarken, .qntQuant, .qntPalrd, .lzwStart, .lzwPut,
    .lzwFinish]

/-- The opcode a byte names, if any (R63, R66). -/
def Opcode.ofByte? (b : BitVec 8) : Option Opcode := Opcode.all.find? fun op => op.byte == b

/-- The row's `match` in opcode_table.json (R67). -/
def Opcode.pattern : Opcode → CommandWord
  | .symSetdim => 0x1000000000000000#64
  | .symSetmode => 0x1100000000000000#64
  | .symMap => 0x1200000000000000#64
  | .bldVclr => 0x2000000000000000#64
  | .bldLighten => 0x2100000000000000#64
  | .bldDarken => 0x2200000000000000#64
  | .qntQuant => 0x3000000000000000#64
  | .qntPalrd => 0x3100000000000000#64
  | .lzwStart => 0x4000000000000000#64
  | .lzwPut => 0x4100000000000000#64
  | .lzwFinish => 0x4200000000000000#64

/-- The row's `mask` in opcode_table.json (R67): a 1 for every bit that is no operand bit. -/
def Opcode.mask : Opcode → CommandWord
  | .symSetdim => 0xFFFFFFFF00000000#64
  | .symSetmode => 0xFFFFFFFFFFFFFFF8#64
  | .symMap => 0xFFFFFFFF00000000#64
  | .bldVclr => 0xFFFFFFFFFFFFFFFF#64
  | .bldLighten => 0xFFFF000000000000#64
  | .bldDarken => 0xFFFF000000000000#64
  | .qntQuant => 0xFFFFFFFF00000000#64
  | .qntPalrd => 0xFFFFFFFFFFFFFF00#64
  | .lzwStart => 0xFFFFFFFFFFFFFFFF#64
  | .lzwPut => 0xFFFFFFFFFFFFFF00#64
  | .lzwFinish => 0xFFFFFFFFFFFFFFFF#64

/-- Whether the word selects the opcode's row: `CW AND mask = match` (R67). -/
def Opcode.selects (op : Opcode) (cw : CommandWord) : Bool := cw &&& op.mask == op.pattern

/-- The command of an opcode with its operand fields read from the word (R64). -/
def Opcode.assemble (op : Opcode) (cw : CommandWord) : Instr :=
  match op with
  | .symSetdim => .symSetdim (cw.extractLsb' 0 16) (cw.extractLsb' 16 16)
  | .symSetmode => .symSetmode (cw.extractLsb' 0 3)
  | .symMap => .symMap (cw.extractLsb' 0 16) (cw.extractLsb' 16 16)
  | .bldVclr => .bldVclr
  | .bldLighten => .bldLighten (cw.extractLsb' 32 8) (cw.extractLsb' 40 8) (cw.extractLsb' 0 32)
  | .bldDarken => .bldDarken (cw.extractLsb' 32 8) (cw.extractLsb' 40 8) (cw.extractLsb' 0 32)
  | .qntQuant => .qntQuant (cw.extractLsb' 0 32)
  | .qntPalrd => .qntPalrd (cw.extractLsb' 0 8)
  | .lzwStart => .lzwStart
  | .lzwPut => .lzwPut (cw.extractLsb' 0 8)
  | .lzwFinish => .lzwFinish

/-- The decoder (R65): first the opcode byte, then the reserved operand bits, in the order of R185. -/
def decode (cw : CommandWord) : Except Reject Instr :=
  match Opcode.ofByte? (opByte cw) with
  | none => .error .reservedOpcode
  | some op => if op.selects cw then .ok (op.assemble cw) else .error .reservedBits

/-- The operand bits `CW[55:0]` of a command (R64), reserved bits zero (R65). -/
def operandBits : Instr → BitVec 56
  | .symSetdim wreq hreq => 0#24 ++ hreq ++ wreq
  | .symSetmode m => 0#53 ++ m
  | .symMap x y => 0#24 ++ y ++ x
  | .bldVclr => 0#56
  | .bldLighten cx cy pix => 0#8 ++ cy ++ cx ++ pix
  | .bldDarken cx cy pix => 0#8 ++ cy ++ cx ++ pix
  | .qntQuant pix => 0#24 ++ pix
  | .qntPalrd idx => 0#48 ++ idx
  | .lzwStart => 0#56
  | .lzwPut sym => 0#48 ++ sym
  | .lzwFinish => 0#56

/-- The encoder: the one word of a command (R62 to R65). -/
def encode (i : Instr) : CommandWord := i.opcode.byte ++ operandBits i

/-- The 64-bit command word whose bits are `w`, bits from `nbits` on being zero. Command words have no byte order (R57),
so the table's bit numbers are the word's own. -/
def tableWord (nbits w : Nat) : CommandWord := BitVec.ofNat 64 (w % 2 ^ nbits)

/-- The command the decoder reads from a word written as spec/opcode_table.json numbers its bits. -/
def decodeTableWord (nbits w : Nat) : Option Instr :=
  match decode (tableWord nbits w) with
  | .ok i => some i
  | .error _ => none

end Sys2Proof
end

