-- ==== Sys2Proof/Config.lean ====
section
/-! DEFINITION. The constants the document fixes (R6), the open parameters at the values the spec decided (R7), the
contents of the palette ROM (R41, R42), and the free values: what the spec leaves unspecified and the machine goes on. -/

namespace Sys2Proof.Config

/-! ### Constants (R6) -/

/-- `CANVAS_MIN` and `CANVAS_MAX`: the bounds of each canvas extent. -/
def canvasMin : Int := 1

@[inherit_doc canvasMin]
def canvasMax : Int := 256

/-- `BLEND_DELTA`: magnitude of the lighten and darken delta. -/
def blendDelta : Int := 24

/-- `ALPHA_THRESHOLD`: an alpha below it quantizes to index 0. -/
def alphaThreshold : Nat := 128

/-- The step between two levels of the colour cube: `CUBE_LEVELS` are its multiples 0 to 5 times. -/
def cubeStep : Nat := 51

/-- `CUBE_FIRST` and `CUBE_LAST`: palette indices of the colour cube. -/
def cubeFirst : Nat := 1

@[inherit_doc cubeFirst]
def cubeLast : Nat := 216

/-- `GRAY_FIRST` and `GRAY_LAST`: palette indices of the grayscale ramp. -/
def grayFirst : Nat := 217

@[inherit_doc grayFirst]
def grayLast : Nat := 240

/-- `CLEAR`, the clear code. -/
def clearCode : Code := 256#12

/-- `END`, the end code. -/
def endCode : Code := 257#12

/-- `FIRST_FREE`: the first code given to a dictionary string. -/
def firstFree : BitVec 13 := 258#13

/-- `WIDTH_INIT`: the code width after `lzw_reset`. -/
def widthInit : BitVec 4 := 9#4

/-- `WIDTH_MAX`: the ceiling of the code width. -/
def widthMax : Nat := 12

/-- `DICT_LIMIT`: the number of code slots at which the dictionary is full (R148). -/
def dictLimit : Nat := 4096

/-- `SUBBLOCK_MAX`: most bytes in one output sub-block. -/
def subblockMax : Nat := 255

/-! ### Open parameters at the decided values (R7, 93 S7) -/

/-- `XW`: width in bits of the signed coordinate and extent operands. The command word has room for no other (R64). -/
def xw : Nat := 16

/-- `GRAY_RAMP[n] = round(255·n / 23)` (R42). -/
def grayRamp (n : Nat) : Nat := (510 * n + 23) / 46

/-- `QFAST` (R129). -/
def qfast : QFast := .inputExact

/-- `END_WIDTH_RULE` (R159). -/
def endWidthRule : EndWidthRule := .insertTime

/-- `VIS_MARKS_TRANSPARENT` (R113, R118). -/
def visMarksTransparent : Bool := true

/-! ### The palette ROM (R41) -/

/-- Entry `i` of the palette as R41 constructs it: black, the colour cube with R outermost and B innermost, the ramp,
black padding. -/
def paletteEntry (i : Nat) : Rgb :=
  if cubeFirst ≤ i ∧ i ≤ cubeLast then
    let n := i - cubeFirst
    ⟨BitVec.ofNat 8 (cubeStep * (n / 36)), BitVec.ofNat 8 (cubeStep * (n / 6 % 6)), BitVec.ofNat 8 (cubeStep * (n % 6))⟩
  else if grayFirst ≤ i ∧ i ≤ grayLast then
    let v := BitVec.ofNat 8 (grayRamp (i - grayFirst))
    ⟨v, v, v⟩
  else ⟨0, 0, 0⟩

/-- The contents of `PAL`: fixed, the same after every reset (R23, R41, R43). -/
def palette : Palette := Vector.ofFn fun i : Fin 256 => paletteEntry i.val

/-! ### Free values (R160, 93 S5)

After `LZW.FINISH` the LZW elements other than `PHASE` are unspecified. Each constant below has no body, so nothing can
be proved of its values; the machine applies it to a counter of State, so that every `LZW.FINISH` leaves fresh ones.
DESIGN CHOICE, safe: notes/assumptions/5.md. -/

/-- The unspecified contents of `DICT`. -/
opaque freeDict : Nat → List DictRow

/-- The unspecified value of `NEXT`. -/
opaque freeNext : Nat → BitVec 13

/-- The unspecified value of `WIDTH`. -/
opaque freeWidth : Nat → BitVec 4

/-- The unspecified value of `PREFIX`. -/
opaque freePfx : Nat → Option Code

/-- The unspecified value of `ACC`. -/
opaque freeAcc : Nat → BitVec 19

/-- The unspecified value of `NBITS`. -/
opaque freeNbits : Nat → BitVec 5

/-- The unspecified value of `BCNT`. -/
opaque freeBcnt : Nat → BitVec 8

/-- The unspecified value of the ghost `NSYM`. -/
opaque freeNsym : Nat → Nat

end Sys2Proof.Config
end

