-- ==== Sys2Proof/Machine/State.lean ====
section
/-! DEFINITION. The state of the block: the elements of R16, grouped by the unit that owns them (R35), the three output
streams (R36), and the two fields that are the model's own; the reasons a step can stop; the state after reset. -/

namespace Sys2Proof.Machine

/-- The state of `SYM` (R17, R18). -/
structure SymRegs where
  /-- `W`, 9 bits, the buffer extent in x. -/
  w : BitVec 9
  /-- `H`, 9 bits, the buffer extent in y. -/
  h : BitVec 9
  /-- `MODE`, 3 bits, seven legal values. -/
  mode : MirrorMode
  deriving DecidableEq, Repr

/-- The state of `LZW` (R24 to R31). -/
structure LzwRegs where
  /-- `PHASE`. -/
  phase : Phase
  /-- `DICT` in table form (R52), oldest row first; the 256 literals (R48) have no row. -/
  dict : List DictRow
  /-- `NEXT`, 13 bits, the next free code. -/
  nextCode : BitVec 13
  /-- `WIDTH`, 4 bits, the active code width. -/
  width : BitVec 4
  /-- `PREFIX` (R28): absent for the empty string (`PVALID` = 0), else `PCODE`. -/
  pfx : Option Code
  /-- `ACC`, 19 bits, the bits packed and not yet output, the oldest in bit 0. -/
  acc : BitVec 19
  /-- `NBITS`, 5 bits, the number of valid bits in `ACC`. -/
  nbits : BitVec 5
  /-- `BCNT`, 8 bits, the bytes already output in the open sub-block. -/
  bcnt : BitVec 8
  /-- `NSYM`, ghost: the symbol cursor. -/
  nsym : Nat
  deriving DecidableEq, Repr

/-- The whole state of the block (R13). -/
structure State where
  /-- The elements of `SYM`. -/
  sym : SymRegs
  /-- `VIS` (R20): the numbers of the bits that are set, strictly rising (notes/assumptions/7.md). -/
  vis : List Cell
  /-- `PAL` (R23): read-only, no command and no reset changes it. -/
  pal : Palette
  /-- The elements of `LZW`. -/
  lzw : LzwRegs
  /-- `RSP` (R36): the response words, oldest first. -/
  rsp : List ResponseWord
  /-- `OUT` (R36): the byte beats, oldest first. -/
  out : List Beat
  /-- `CODES` (R36), ghost: the `(code, width)` pairs emitted since the last `LZW.START`. -/
  codes : List (Code × BitVec 4)
  /-- The model's own: what the host has presented and the block has not yet taken, in order (R59, R193).
  DESIGN CHOICE: notes/assumptions/1.md. -/
  inbox : List HostEvent
  /-- The model's own: how many blocks of free values have been used. DESIGN CHOICE: notes/assumptions/5.md. -/
  freeCtr : Nat
  deriving DecidableEq, Repr

/-- The reasons for which the machine stops with a fault: none. Every word in every state has an outcome and there is
no state from which the block cannot go on (R187; 93 section 2). Nobody raises one. -/
inductive Fault where
  deriving DecidableEq, Repr

/-- The reasons for which the model has no meaning for a command. The block's own refusals (R181) are no such reason:
they are next states. -/
inductive Refusal where
  /-- The command has no meaning in this model yet. Raised by an arm of `exec` only, and no arm does. Safe: nothing can
  be proved of a step that does not happen. -/
  | notModelled (mnemonic : String)
  deriving DecidableEq, Repr

/-- The LZW elements right after reset (R32): `PHASE` is IDLE. The spec gives the others no value; the model names the
ones `LZW.START` will write before it emits. DESIGN CHOICE, unsafe: notes/assumptions/4.md. -/
def LzwRegs.reset : LzwRegs :=
  { phase := .idle, dict := [], nextCode := Config.firstFree, width := Config.widthInit, pfx := none, acc := 0,
    nbits := 0, bcnt := 0, nsym := 0 }

/-- The state right after reset (R200): `W` = `H` = 1, `MODE` none, `VIS` empty, `PAL` fixed, `PHASE` IDLE, the streams
empty; nothing presented by the host. -/
def State.reset : State :=
  { sym := { w := 1, h := 1, mode := .none }, vis := [], pal := Config.palette, lzw := LzwRegs.reset, rsp := [],
    out := [], codes := [], inbox := [], freeCtr := 0 }

end Sys2Proof.Machine
end

