-- ==== Sys2Proof/Machine/Flags.lean ====
section
/-! DEFINITION. The block has no status flags or condition codes (R15). What stands in their place is computed here: the
`STATUS` of a response word (R75), the `SKIP` and `APPLIED` marks of the blender (R73), and the `SB_LAST` marker of a
byte beat (R76, R151). -/

namespace Sys2Proof.Machine

/-- The `STATUS` values (R75). The values 3 to 15 are never produced. -/
inductive Status where
  | ok
  | errReserved
  | errProtocol
  deriving DecidableEq, Repr

/-- The 4-bit field of a status (R75). -/
def statusField : Status → BitVec 4
  | .ok => 0#4
  | .errReserved => 1#4
  | .errProtocol => 2#4

/-- Why the blender skipped a cell, or that it did not (R73, R113). -/
inductive Skip where
  | notSkipped
  | visited
  | transparent
  deriving DecidableEq, Repr

/-- The 2-bit field `SKIP` (R73). -/
def skipField : Skip → BitVec 2
  | .notSkipped => 0#2
  | .visited => 1#2
  | .transparent => 2#2

/-- The bit `APPLIED`: 1 when the cell was adjusted, that is, not skipped (R73, R117). -/
def appliedField : Skip → BitVec 1
  | .notSkipped => 1#1
  | .visited => 0#1
  | .transparent => 0#1

/-- `SB_LAST` of the byte that is number `count` of its sub-block, counted from 1 (R151): the 255th, or the last of the
stream. -/
def subBlockEnds (count : Nat) (fin : Bool) : Bool := count == Config.subblockMax || fin

end Sys2Proof.Machine
end

