-- ==== Sys2Proof/Machine/Operands.lean ====
section
/-! DEFINITION. Operand forms and result forms: signed operands, packed pixels and palette entries, mode codes, and the
layout of response words, point words and byte beats (R68 to R76, R79). -/

namespace Sys2Proof.Machine

/-- `clamp(v, lo, hi)` (R11). -/
def clamp (v lo hi : Int) : Int := if v < lo then lo else if hi < v then hi else v

/-- The value of a signed 16-bit operand, `sext_16` (R68). -/
def signedOperand (field : BitVec 16) : Int := field.toInt

/-- A packed pixel, red in the high byte (R70). -/
def unpackPixel (pix : BitVec 32) : Pixel :=
  ⟨pix.extractLsb' 24 8, pix.extractLsb' 16 8, pix.extractLsb' 8 8, pix.extractLsb' 0 8⟩

@[inherit_doc unpackPixel]
def packPixel (p : Pixel) : BitVec 32 := p.r ++ p.g ++ p.b ++ p.a

/-- The colour of a pixel, its alpha left out. -/
def pixelColour (p : Pixel) : Rgb := ⟨p.r, p.g, p.b⟩

/-- A packed palette entry, red in the high byte (R79). -/
def packRgb (c : Rgb) : BitVec 24 := c.r ++ c.g ++ c.b

/-- The mode code (R71). -/
def modeCode : MirrorMode → BitVec 3
  | .none => 0#3
  | .horizontal => 1#3
  | .vertical => 2#3
  | .both => 3#3
  | .central => 4#3
  | .diagonal => 5#3
  | .antidiagonal => 6#3

/-- The mirror modes in the order of their codes (R71). -/
def allModes : List MirrorMode := [.none, .horizontal, .vertical, .both, .central, .diagonal, .antidiagonal]

/-- The mode of a code; none for the reserved code 7 (R71, R94). -/
def modeOfCode? (m : BitVec 3) : Option MirrorMode := allModes.find? fun mode => modeCode mode == m

/-- The number of the bit of `(x, y)` in the visited bitmap, `y·256 + x` (R20). -/
def cellNumber (cx cy : BitVec 8) : Cell := cy ++ cx

/-- A result word (R72): echoed opcode byte, `STATUS`, `KIND` = 0, payload. -/
def resultWord (op : BitVec 8) (st : Status) (payload : BitVec 48) : ResponseWord :=
  op ++ statusField st ++ 0#4 ++ payload

/-- The payload of `SYM.SETDIM` (R73): `W` in bits 8:0, `H` in bits 24:16. -/
def dimPayload (w h : BitVec 9) : BitVec 48 := 0#23 ++ h ++ 0#7 ++ w

/-- A payload whose only field is its low bits: `SYM.SETMODE`, `SYM.MAP`, `QNT.QUANT`, `QNT.PALRD` (R73). -/
def lowPayload {n : Nat} (v : BitVec n) : BitVec 48 := v.setWidth 48

/-- The payload of `BLD.LIGHTEN` and `BLD.DARKEN` (R73): pixel in bits 31:0, `APPLIED` in bit 32, `SKIP` in bits
34:33. -/
def blendPayload (skip : Skip) (pix : BitVec 32) : BitVec 48 := 0#13 ++ skipField skip ++ appliedField skip ++ pix

/-- A point word (R74): opcode byte 0x12, `STATUS` 0, `KIND` 1, last marker in bit 19, position in bits 18:16, y in bits
15:8, x in bits 7:0. -/
def pointWord (j n : Nat) (p : Point) : ResponseWord :=
  Opcode.symMap.byte ++ 0#4 ++ 1#4 ++ 0#28 ++ BitVec.ofBool (j + 1 == n) ++ BitVec.ofNat 3 j ++ BitVec.ofInt 8 p.y
    ++ BitVec.ofInt 8 p.x

/-- A byte beat (R76): `LAST` in bit 9, `SB_LAST` in bit 8, the byte in bits 7:0. -/
def beat (data : BitVec 8) (sbLast last : Bool) : Beat := BitVec.ofBool last ++ BitVec.ofBool sbLast ++ data

end Sys2Proof.Machine
end

