-- ==== Sys2Proof/Machine/Ops.lean ====
section
/-! DEFINITION. The named operations over the state: field updates, the environment's events, the two ways a command
ends (`respond`, `refuse`), and the primitives of the three typed stores and the byte port (R11). -/

namespace Sys2Proof.Machine

/-! ### Field updates -/

/-- `SYM`'s elements replaced. -/
def State.setSym (s : State) (v : SymRegs) : State := { s with sym := v }

/-- `VIS` replaced. -/
def State.setVis (s : State) (v : List Cell) : State := { s with vis := v }

/-- `LZW`'s elements replaced. -/
def State.setLzw (s : State) (v : LzwRegs) : State := { s with lzw := v }

/-- Response words appended to `RSP`. -/
def State.pushRsp (s : State) (ws : List ResponseWord) : State := { s with rsp := s.rsp ++ ws }

/-- A beat appended to `OUT`. -/
def State.pushOut (s : State) (b : Beat) : State := { s with out := s.out ++ [b] }

/-- `CODES` replaced. -/
def State.setCodes (s : State) (v : List (Code × BitVec 4)) : State := { s with codes := v }

/-- The host's events replaced. -/
def State.setInbox (s : State) (v : List HostEvent) : State := { s with inbox := v }

/-- The counter of free values replaced. -/
def State.setFreeCtr (s : State) (v : Nat) : State := { s with freeCtr := v }

/-! ### The environment (R193, R200) -/

/-- A command word presented to the block, to be the next event it takes. -/
def presentWord (cw : CommandWord) (s : State) : State := s.setInbox (.command cw :: s.inbox)

/-- The reset event (R200): every element at its reset value and the streams empty; `PAL` is unchanged (R23). The
events the host presents after it stay presented, and free values stay used. -/
def hostReset (s : State) : State :=
  { State.reset with pal := s.pal, inbox := s.inbox, freeCtr := s.freeCtr }

/-! ### How a command ends (R72, R181) -/

/-- `respond(status, payload)` (R72): one result word appended to `RSP`. -/
def respond (op : BitVec 8) (st : Status) (payload : BitVec 48) (s : State) : State :=
  s.pushRsp [resultWord op st payload]

/-- `refuse(status)` (R181), the block's only abnormal outcome: a result word with payload 0 and no other change. There
is no trap entry and nothing to return from (R189, R190). -/
def refuse (op : BitVec 8) (st : Status) (s : State) : State := respond op st 0#48 s

/-- `respond_point` for every point of a result, position 0 first (R74). -/
def respondPoints (ps : List Point) (s : State) : State :=
  s.pushRsp (ps.zipIdx.map fun pj => pointWord pj.2 ps.length pj.1)

/-! ### The palette ROM (R44) -/

/-- `PalRead(i)`. -/
def palRead (pal : Palette) (i : BitVec 8) : Rgb := pal[i.toNat]'i.isLt

/-! ### The visited bitmap (R53, R54) -/

/-- Whether the bit of a cell is set. -/
def visHas (vis : List Cell) (c : Cell) : Bool := vis.contains c

/-- The bit of a cell set; the list stays strictly rising, and a bit already set changes nothing. -/
def visInsert (c : Cell) : List Cell → List Cell
  | [] => [c]
  | v :: vs => if c < v then c :: v :: vs else if c = v then v :: vs else v :: visInsert c vs

/-- `VisTestAndSet(x, y)` (R53): whether the cell was in `VIS`, which then has it. -/
def visTestAndSet (cx cy : BitVec 8) (s : State) : Bool × State :=
  (visHas s.vis (cellNumber cx cy), s.setVis (visInsert (cellNumber cx cy) s.vis))

/-- `VisClear()` (R54). -/
def visClear (s : State) : State := s.setVis []

/-! ### The dictionary (R47 to R52) -/

/-- The code of a literal symbol, itself (R46, R48). -/
def literalCode (k : Symbol) : Code := k.setWidth 12

/-- `T(p, k)` (R52): the code of the string of `p` followed by `k`, if that string is a key. -/
def dictFind (dict : List DictRow) (p : Code) (k : Symbol) : Option Code :=
  (dict.find? fun row => row.pcode == p && row.sym == k).map DictRow.code

/-- `DictInit()` (R48): the literals alone, which have no row. -/
def dictInit : List DictRow := []

/-- `DictInsert(PREFIX ++ [k], c)` (R51). -/
def dictInsert (dict : List DictRow) (p : Code) (k : Symbol) (c : Code) : List DictRow := dict ++ [⟨p, k, c⟩]

/-- The code of the string that continues the string of `p` by the symbols `ks` (R52). -/
def dictCodeFrom? (dict : List DictRow) (p : Code) : List Symbol → Option Code
  | [] => some p
  | k :: ks => (dictFind dict p k).bind fun c => dictCodeFrom? dict c ks

/-- `DictCode(s)` (R50) where `s` is a key, none where it is not; the empty string is no key (R9). -/
def dictCode? (dict : List DictRow) : List Symbol → Option Code
  | [] => none
  | k :: ks => dictCodeFrom? dict (literalCode k) ks

/-- `DictHas(s)` (R49). -/
def dictHas (dict : List DictRow) (str : List Symbol) : Bool := (dictCode? dict str).isSome

/-! ### The byte port (R150, R151) -/

/-- `outbyte(b, fin)` (R151). -/
def outbyte (b : BitVec 8) (fin : Bool) (s : State) : State :=
  let count := s.lzw.bcnt.toNat + 1
  let sb := subBlockEnds count fin
  (s.pushOut (beat b sb fin)).setLzw { s.lzw with bcnt := if sb then 0 else BitVec.ofNat 8 count }

/-- The loop of `emit` (R150): output `n` whole bytes, the oldest bits first, and store what is left in the
accumulator. `acc` and `nbits` are exact integers. -/
def drain (closing : Bool) : (n acc nbits : Nat) → State → State
  | 0, acc, nbits, s => s.setLzw { s.lzw with acc := BitVec.ofNat 19 acc, nbits := BitVec.ofNat 5 nbits }
  | n + 1, acc, nbits, s =>
    drain closing n (acc / 256) (nbits - 8) (outbyte (BitVec.ofNat 8 acc) (closing && nbits - 8 == 0) s)

/-- `emit(code, closing)` (R150): the code's bits go above the pending ones, at the active width, and every byte that
fills is output (`nbits / 8` turns of the loop `while NBITS ≥ 8`). -/
def emit (code : Code) (closing : Bool) (s : State) : State :=
  let nbits := s.lzw.nbits.toNat + s.lzw.width.toNat
  let acc := s.lzw.acc.toNat + code.toNat * 2 ^ s.lzw.nbits.toNat
  drain closing (nbits / 8) acc nbits (s.setCodes (s.codes ++ [(code, s.lzw.width)]))

/-! ### Dictionary generations and code width (R147, R156, R160) -/

/-- `lzw_reset()` (R147). -/
def lzwReset (s : State) : State :=
  s.setLzw { s.lzw with dict := dictInit, nextCode := Config.firstFree, width := Config.widthInit }

/-- The width rule (R156): one bit more when the code about to be assigned does not fit and the ceiling is not
reached. -/
def widen (nextCode : BitVec 13) (width : BitVec 4) : BitVec 4 :=
  if 2 ^ width.toNat ≤ nextCode.toNat ∧ width.toNat < Config.widthMax then width + 1 else width

/-- The insertion (R156, R157): the width test, then the string of `p` followed by `k` gets the code `NEXT`, which grows
by one. -/
def lzwInsert (p : Code) (k : Symbol) (s : State) : State :=
  s.setLzw { s.lzw with
    width := widen s.lzw.nextCode s.lzw.width
    dict := dictInsert s.lzw.dict p k (s.lzw.nextCode.setWidth 12)
    nextCode := s.lzw.nextCode + 1 }

/-- `PREFIX` replaced. -/
def setPfx (p : Option Code) (s : State) : State := s.setLzw { s.lzw with pfx := p }

/-- The LZW elements as `LZW.FINISH` leaves them (R160): `PHASE` is IDLE, the others are unspecified again (R16), so
each is a free value. DESIGN CHOICE, safe: notes/assumptions/5.md. -/
def unspecifiedLzw (n : Nat) : LzwRegs :=
  { phase := .idle, dict := Config.freeDict n, nextCode := Config.freeNext n, width := Config.freeWidth n,
    pfx := Config.freePfx n, acc := Config.freeAcc n, nbits := Config.freeNbits n, bcnt := Config.freeBcnt n,
    nsym := Config.freeNsym n }

end Sys2Proof.Machine
end

