-- ==== Sys2Proof/Machine/Bld.lean ====
section
/-! DEFINITION. `BLD`, the pixel blender (41_bld.md): `BLD.VCLR`, `BLD.LIGHTEN`, `BLD.DARKEN`. -/

namespace Sys2Proof.Machine

/-- `adjust(c, d)` (R111): the exact sum, clamped to a channel. -/
def adjust (c : BitVec 8) (d : Int) : BitVec 8 := BitVec.ofInt 8 (clamp (c.toNat + d) 0 255)

/-- `blend((r, g, b, a), d)` (R111): three independent lanes, alpha copied. -/
def blend (p : Pixel) (d : Int) : Pixel := ⟨adjust p.r d, adjust p.g d, adjust p.b d, p.a⟩

/-- The answer of `additive` (R113): the blended pixel when the cell was not skipped, else the pixel as it came. -/
def blendAnswer (op : BitVec 8) (d : Int) (pix : BitVec 32) (skip : Skip) (s : State) : State :=
  let result := match skip with
    | .notSkipped => packPixel (blend (unpackPixel pix) d)
    | .visited => pix
    | .transparent => pix
  respond op .ok (blendPayload skip result) s

/-- `additive(d)` (R113). `marks` is `VIS_MARKS_TRANSPARENT`: when it is false the transparency test comes first and
such a cell is not marked (R118). -/
def additive (marks : Bool) (op : BitVec 8) (d : Int) (cx cy : BitVec 8) (pix : BitVec 32) (s : State) : State :=
  let transparent := (unpackPixel pix).a == 0
  if transparent && !marks then blendAnswer op d pix .transparent s
  else
    let (was, s') := visTestAndSet cx cy s
    if was then blendAnswer op d pix .visited s'
    else if transparent then blendAnswer op d pix .transparent s'
    else blendAnswer op d pix .notSkipped s'

/-- `BLD.VCLR` (R112). -/
def execBldVclr (s : State) : Host.Outcome State Fault Refusal :=
  .next (respond Opcode.bldVclr.byte .ok 0#48 (visClear s))

/-- `BLD.LIGHTEN` (R114). -/
def execBldLighten (cx cy : BitVec 8) (pix : BitVec 32) (s : State) : Host.Outcome State Fault Refusal :=
  .next (additive Config.visMarksTransparent Opcode.bldLighten.byte Config.blendDelta cx cy pix s)

/-- `BLD.DARKEN` (R115). -/
def execBldDarken (cx cy : BitVec 8) (pix : BitVec 32) (s : State) : Host.Outcome State Fault Refusal :=
  .next (additive Config.visMarksTransparent Opcode.bldDarken.byte (-Config.blendDelta) cx cy pix s)

end Sys2Proof.Machine
end

