-- ==== Sys2Proof/Machine/Lzw.lean ====
section
/-! DEFINITION. `LZW`, the variable-code-width compressor (43_lzw.md): `LZW.START`, `LZW.PUT`, `LZW.FINISH`. -/

namespace Sys2Proof.Machine

/-- The elements `LZW.START` writes before it emits (R153). -/
def openEncode (s : State) : State :=
  let s := lzwReset (s.setLzw { s.lzw with phase := .active, pfx := none, acc := 0, nbits := 0, bcnt := 0, nsym := 0 })
  s.setCodes []

/-- `LZW.START` (R153); refused while an encode is open (R154). -/
def execLzwStart (s : State) : Host.Outcome State Fault Refusal :=
  match s.lzw.phase with
  | .active => .next (refuse Opcode.lzwStart.byte .errProtocol s)
  | .idle => .next (respond Opcode.lzwStart.byte .ok 0#48 (emit Config.clearCode false (openEncode s)))

/-- The third branch of `LZW.PUT` (R155): the extension of the string of `p` by `k` is unknown. The prefix code is
emitted; a full dictionary is reset behind a CLEAR (R158), any other gets the extended string (R156, R157). -/
def putUnknown (p : Code) (k : Symbol) (s : State) : State :=
  let s := emit p false s
  let s := if s.lzw.nextCode.toNat = Config.dictLimit then lzwReset (emit Config.clearCode false s) else lzwInsert p k s
  setPfx (some (literalCode k)) s

/-- One turn of the main loop (R155) on the symbol `k`, which the symbol cursor has counted. -/
def consume (k : Symbol) (s : State) : State :=
  match s.lzw.pfx with
  | none => setPfx (some (literalCode k)) s
  | some p =>
    match dictFind s.lzw.dict p k with
    | some c => setPfx (some c) s
    | none => putUnknown p k s

/-- `LZW.PUT` (R155); refused while no encode is open (R154). -/
def execLzwPut (k : Symbol) (s : State) : Host.Outcome State Fault Refusal :=
  match s.lzw.phase with
  | .idle => .next (refuse Opcode.lzwPut.byte .errProtocol s)
  | .active =>
    .next (respond Opcode.lzwPut.byte .ok 0#48 (consume k (s.setLzw { s.lzw with nsym := s.lzw.nsym + 1 })))

/-- The final prefix code of `LZW.FINISH` (R160), with the open parameter `END_WIDTH_RULE` as an argument (R159). -/
def finishPrefix (rule : EndWidthRule) (s : State) : State :=
  match s.lzw.pfx with
  | none => s
  | some p =>
    let s := emit p false s
    match rule with
    | .insertTime => s
    | .emitTime => s.setLzw { s.lzw with width := widen s.lzw.nextCode s.lzw.width }

/-- The flush of `LZW.FINISH` (R160): a partial byte is output, its high bits zero (R56). -/
def flush (s : State) : State :=
  if s.lzw.nbits = 0 then s
  else
    let s := outbyte (s.lzw.acc.setWidth 8) true s
    s.setLzw { s.lzw with acc := 0, nbits := 0 }

/-- Everything `LZW.FINISH` outputs (R160): the final prefix code, END, the flush. -/
def finishOutput (rule : EndWidthRule) (s : State) : State := flush (emit Config.endCode true (finishPrefix rule s))

/-- The end of an encode (R160): IDLE, the other elements unspecified. -/
def closeEncode (s : State) : State := (s.setLzw (unspecifiedLzw s.freeCtr)).setFreeCtr (s.freeCtr + 1)

/-- `LZW.FINISH` (R160); refused while no encode is open (R154). -/
def execLzwFinish (s : State) : Host.Outcome State Fault Refusal :=
  match s.lzw.phase with
  | .idle => .next (refuse Opcode.lzwFinish.byte .errProtocol s)
  | .active =>
    .next (respond Opcode.lzwFinish.byte .ok 0#48 (closeEncode (finishOutput Config.endWidthRule s)))

end Sys2Proof.Machine
end

