-- ==== Sys2Proof/Machine/Qnt.lean ====
section
/-! DEFINITION. `QNT`, the palette quantizer (42_qnt.md): `QNT.QUANT`, `QNT.PALRD`. -/

namespace Sys2Proof.Machine

/-- `level(c) = round(c / 51) = (c + 25) div 51` (R128). -/
def level (c : BitVec 8) : Nat := (c.toNat + 25) / Config.cubeStep

/-- The direct index (R128), 1 to 216. -/
def direct (c : Rgb) : BitVec 8 := BitVec.ofNat 8 (Config.cubeFirst + (level c.r * 6 + level c.g) * 6 + level c.b)

/-- The exact difference of two channels (R131). -/
def channelDiff (u v : BitVec 8) : Int := u.toNat - v.toNat

/-- The squared Euclidean distance of two colours (R130), exact (R131). -/
def distance (c e : Rgb) : Int :=
  channelDiff c.r e.r * channelDiff c.r e.r + channelDiff c.g e.g * channelDiff c.g e.g
    + channelDiff c.b e.b * channelDiff c.b e.b

/-- The indices the search examines (R130): 1, 2, ..., 255. -/
def searchIndices : List (BitVec 8) := (List.range' 1 255).map (BitVec.ofNat 8)

/-- A distance no colour has, above 195075 (R131): the `+∞` of R130. -/
def farther : Int := 195076

/-- The loop of `search` (R130): an equal distance does not replace, a distance of 0 ends it. -/
def searchLoop (pal : Palette) (c : Rgb) : (indices : List (BitVec 8)) → (best : Int) → (idx : BitVec 8) → BitVec 8
  | [], _, idx => idx
  | i :: is, best, idx =>
    let d := distance c (palRead pal i)
    if d < best then
      if d = 0 then i else searchLoop pal c is d i
    else searchLoop pal c is best idx

/-- `search(r, g, b)` (R130). The index it starts from is replaced in the first turn (R131). -/
def search (pal : Palette) (c : Rgb) : BitVec 8 := searchLoop pal c searchIndices farther 0

/-- `quantize(r, g, b, a)` (R133), with the open parameter `QFAST` as an argument. -/
def quantize (qfast : QFast) (pal : Palette) (p : Pixel) : BitVec 8 :=
  let c := pixelColour p
  if p.a.toNat < Config.alphaThreshold then 0
  else if qfast = .always ∨ palRead pal (direct c) = c then direct c
  else search pal c

/-- `QNT.QUANT` (R126). -/
def execQntQuant (pix : BitVec 32) (s : State) : Host.Outcome State Fault Refusal :=
  .next (respond Opcode.qntQuant.byte .ok (lowPayload (quantize Config.qfast s.pal (unpackPixel pix))) s)

/-- `QNT.PALRD` (R136). -/
def execQntPalrd (idx : BitVec 8) (s : State) : Host.Outcome State Fault Refusal :=
  .next (respond Opcode.qntPalrd.byte .ok (lowPayload (packRgb (palRead s.pal idx))) s)

end Sys2Proof.Machine
end

