-- ==== Sys2Proof/Machine/Sym.lean ====
section
/-! DEFINITION. `SYM`, the symmetry transform engine (40_sym.md): `SYM.SETDIM`, `SYM.SETMODE`, `SYM.MAP`. -/

namespace Sys2Proof.Machine

/-- A requested extent clamped into [1,256] (R92). -/
def clampExtent (req : Int) : BitVec 9 := BitVec.ofInt 9 (clamp req Config.canvasMin Config.canvasMax)

/-- `SYM.SETDIM` (R92, R93): the clamp is silent, the effective extents are in the payload. -/
def execSymSetdim (wreq hreq : BitVec 16) (s : State) : Host.Outcome State Fault Refusal :=
  let w := clampExtent (signedOperand wreq)
  let h := clampExtent (signedOperand hreq)
  .next (respond Opcode.symSetdim.byte .ok (dimPayload w h) (s.setSym { s.sym with w := w, h := h }))

/-- `SYM.SETMODE` (R94): the reserved code is refused and `MODE` keeps its value. -/
def execSymSetmode (m : BitVec 3) (s : State) : Host.Outcome State Fault Refusal :=
  match modeOfCode? m with
  | none => .next (refuse Opcode.symSetmode.byte .errReserved s)
  | some mode =>
    .next (respond Opcode.symSetmode.byte .ok (lowPayload (modeCode mode)) (s.setSym { s.sym with mode := mode }))

/-- The candidate sequence `C` (R97): the origin, then its images in the order of the table. -/
def candidates (w h : Int) (mode : MirrorMode) (p : Point) : List Point :=
  let horizontal : Point := ⟨w - 1 - p.x, p.y⟩
  let vertical : Point := ⟨p.x, h - 1 - p.y⟩
  let central : Point := ⟨w - 1 - p.x, h - 1 - p.y⟩
  match mode with
  | .none => [p]
  | .horizontal => [p, horizontal]
  | .vertical => [p, vertical]
  | .both => [p, horizontal, vertical, central]
  | .central => [p, central]
  | .diagonal => [p, ⟨p.y, p.x⟩]
  | .antidiagonal => [p, ⟨w - 1 - p.y, h - 1 - p.x⟩]

/-- Whether a point lies in the canvas `[0, W) × [0, H)` (R98). -/
def inCanvas (w h : Int) (p : Point) : Bool := decide (0 ≤ p.x ∧ p.x < w ∧ 0 ≤ p.y ∧ p.y < h)

/-- Every point equal to an earlier one removed (R99). -/
def dedupFirst : List Point → List Point
  | [] => []
  | p :: ps => p :: (dedupFirst ps).filter fun q => q != p

/-- `mirror(x, y, mode, W, H)` (R97 to R99). -/
def mirror (w h : Int) (mode : MirrorMode) (p : Point) : List Point :=
  dedupFirst ((candidates w h mode p).filter (inCanvas w h))

/-- `SYM.MAP` (R96): the result word with the number of points, then the point words; no state is written. -/
def execSymMap (x y : BitVec 16) (s : State) : Host.Outcome State Fault Refusal :=
  let ps := mirror s.sym.w.toNat s.sym.h.toNat s.sym.mode ⟨signedOperand x, signedOperand y⟩
  .next (respondPoints ps (respond Opcode.symMap.byte .ok (lowPayload (BitVec.ofNat 3 ps.length)) s))

end Sys2Proof.Machine
end

