-- ==== Sys2Proof/Machine/Dispatch.lean ====
section
/-! DEFINITION. The meaning of every command, one arm per constructor. -/

namespace Sys2Proof.Machine

def exec (i : Instr) (s : State) : Host.Outcome State Fault Refusal :=
  match i with
  | .symSetdim wreq hreq => Sys2Proof.Machine.execSymSetdim wreq hreq s
  | .symSetmode m => Sys2Proof.Machine.execSymSetmode m s
  | .symMap x y => Sys2Proof.Machine.execSymMap x y s
  | .bldVclr => Sys2Proof.Machine.execBldVclr s
  | .bldLighten cx cy pix => Sys2Proof.Machine.execBldLighten cx cy pix s
  | .bldDarken cx cy pix => Sys2Proof.Machine.execBldDarken cx cy pix s
  | .qntQuant pix => Sys2Proof.Machine.execQntQuant pix s
  | .qntPalrd idx => Sys2Proof.Machine.execQntPalrd idx s
  | .lzwStart => Sys2Proof.Machine.execLzwStart s
  | .lzwPut k => Sys2Proof.Machine.execLzwPut k s
  | .lzwFinish => Sys2Proof.Machine.execLzwFinish s

end Sys2Proof.Machine
end

