-- ==== Sys2Proof/Machine/Step.lean ====
section
/-! DEFINITION. One step of the block: the next event the host has presented, taken whole (R2, R59, R193). -/

namespace Sys2Proof.Machine

/-- One command word executed to completion or refused (R187): a word that decodes runs its meaning; any other is
refused with `ERR_RESERVED`, its opcode byte echoed (R65, R66, R72). -/
def runWord (cw : CommandWord) (s : State) : Host.Outcome State Fault Refusal :=
  match decode cw with
  | .ok i => exec i s
  | .error _ => .next (refuse (opByte cw) .errReserved s)

/-- One step. With nothing presented the block waits (R201): the state stays as it is. DESIGN CHOICE:
notes/assumptions/2.md. -/
def step (s : State) : Host.Outcome State Fault Refusal :=
  match s.inbox with
  | [] => .next s
  | .reset :: rest => .next (hostReset (s.setInbox rest))
  | .command cw :: rest => runWord cw (s.setInbox rest)

/-- `s` with the word presented as the next event (R193): the very next step runs it. -/
def State.withFetchWord (s : State) (nbits w : Nat) : State := presentWord (tableWord nbits w) s

end Sys2Proof.Machine
end

