-- ==== Sys2Proof/Machine/Asm.lean ====
section
/-! DEFINITION. The written form of commands and answers (R83) and the pseudo-instructions (R84). No step depends on this
file: it is how a host's programmer writes what the machine takes and gives. Texts are lists of characters. -/

namespace Sys2Proof.Machine

/-! ### Pseudo-instructions (R84) -/

/-- `BLD.STROKE_BEGIN`. -/
def strokeBegin : List Instr := [.bldVclr]

/-- `BLD.STROKE_END`. -/
def strokeEnd : List Instr := [.bldVclr]

/-- `LZW.ENCODE s0, s1, ...`: one whole encode. -/
def lzwEncode (syms : List Symbol) : List Instr := .lzwStart :: syms.map .lzwPut ++ [.lzwFinish]

/-! ### Printing (R83) -/

/-- The digit of a value below 16, `ten` being the digit of ten. The spec states no letter case for hexadecimal digits
(R10, R83); which one is written where is the model's choice. DESIGN CHOICE (notes/assumptions/16.md). -/
def hexChar (ten : Char) (v : Nat) : Char := if v < 10 then Char.ofNat (48 + v) else Char.ofNat (ten.toNat + v - 10)

/-- The `n` low hexadecimal digits of a value, the highest first. -/
def hexText (ten : Char) : (n v : Nat) → List Char
  | 0, _ => []
  | n + 1, v => hexText ten n (v / 16) ++ [hexChar ten (v % 16)]

/-- The decimal digits of a value below `10^n`, without leading zeros. -/
def decText : (n v : Nat) → List Char
  | 0, _ => []
  | n + 1, v => (if v < 10 then [] else decText n (v / 10)) ++ [Char.ofNat (48 + v % 10)]

/-- A decimal integer, a leading `-` for negative. -/
def intText (v : Int) : List Char := if v < 0 then '-' :: decText 10 v.natAbs else decText 10 v.natAbs

/-- An unsigned operand in decimal. -/
def bitsText {n : Nat} (v : BitVec n) : List Char := decText 10 v.toNat

/-- A packed pixel as `#RRGGBBAA` (R10). Upper case is the model's choice, after the examples of R10. DESIGN CHOICE
(notes/assumptions/16.md). -/
def pixelText (pix : BitVec 32) : List Char := '#' :: hexText 'A' 8 pix.toNat

/-- The name of a mode (R71). -/
def modeName : MirrorMode → String
  | .none => "none"
  | .horizontal => "horizontal"
  | .vertical => "vertical"
  | .both => "both"
  | .central => "central"
  | .diagonal => "diagonal"
  | .antidiagonal => "antidiagonal"

/-- The mnemonic of an opcode (R63). -/
def mnemonic : Opcode → String
  | .symSetdim => "SYM.SETDIM"
  | .symSetmode => "SYM.SETMODE"
  | .symMap => "SYM.MAP"
  | .bldVclr => "BLD.VCLR"
  | .bldLighten => "BLD.LIGHTEN"
  | .bldDarken => "BLD.DARKEN"
  | .qntQuant => "QNT.QUANT"
  | .qntPalrd => "QNT.PALRD"
  | .lzwStart => "LZW.START"
  | .lzwPut => "LZW.PUT"
  | .lzwFinish => "LZW.FINISH"

/-- The operands of a command as R83 writes them; the reserved mode code, which has no name, in decimal. DESIGN CHOICE
(notes/assumptions/16.md). -/
def operandTexts : Instr → List (List Char)
  | .symSetdim wreq hreq => [intText (signedOperand wreq), intText (signedOperand hreq)]
  | .symSetmode m => [match modeOfCode? m with | some mode => (modeName mode).toList | none => bitsText m]
  | .symMap x y => [intText (signedOperand x), intText (signedOperand y)]
  | .bldVclr => []
  | .bldLighten cx cy pix => [bitsText cx, bitsText cy, pixelText pix]
  | .bldDarken cx cy pix => [bitsText cx, bitsText cy, pixelText pix]
  | .qntQuant pix => [pixelText pix]
  | .qntPalrd idx => [bitsText idx]
  | .lzwStart => []
  | .lzwPut sym => [bitsText sym]
  | .lzwFinish => []

/-- A command in the form `UNIT.FUNC operand, operand` (R83). -/
def commandText (i : Instr) : List Char :=
  match operandTexts i with
  | [] => (mnemonic i.opcode).toList
  | t :: ts => (mnemonic i.opcode).toList ++ ' ' :: t ++ (ts.map fun u => ',' :: ' ' :: u).flatten

/-- The status of an answer: `-> OK`, `-> ERR_RESERVED`, `-> ERR_PROTOCOL` (R83). -/
def statusText : Status → String
  | .ok => "-> OK"
  | .errReserved => "-> ERR_RESERVED"
  | .errProtocol => "-> ERR_PROTOCOL"

/-- A point as `(x,y)`. -/
def pointText (p : Point) : List Char := '(' :: intText p.x ++ ',' :: intText p.y ++ [')']

/-- The points of `SYM.MAP` as `[(x0,y0), (x1,y1), ...]` (R83). -/
def pointsText : List Point → List Char
  | [] => ['[', ']']
  | p :: ps => '[' :: pointText p ++ (ps.map fun q => ',' :: ' ' :: pointText q).flatten ++ [']']

/-- A byte beat: two hexadecimal digits, then `|` after the end of a sub-block, `||` after the last byte (R83). Lower case
is the model's choice, after the byte vectors of 95_test_vectors.md. DESIGN CHOICE (notes/assumptions/16.md). -/
def beatText (b : Beat) : List Char :=
  hexText 'a' 2 (b.extractLsb' 0 8).toNat ++
    (if b.getLsbD 9 then ['|', '|'] else if b.getLsbD 8 then ['|'] else [])

/-! ### Reading (R83) -/

/-- The value of a digit in a base of 10 or 16. Reading the letters of either case is the model's choice. DESIGN CHOICE
(notes/assumptions/16.md). -/
def digitValue? (base : Nat) (c : Char) : Option Nat :=
  let v := if '0' ≤ c ∧ c ≤ '9' then some (c.toNat - 48)
    else if 'A' ≤ c ∧ c ≤ 'F' then some (c.toNat - 55)
    else if 'a' ≤ c ∧ c ≤ 'f' then some (c.toNat - 87)
    else none
  v.filter fun n => n < base

/-- The value of a non-empty run of digits, read after the value `acc`. -/
def digitsValue? (base acc : Nat) : List Char → Option Nat
  | [] => none
  | [c] => (digitValue? base c).map fun v => acc * base + v
  | c :: cs => (digitValue? base c).bind fun v => digitsValue? base (acc * base + v) cs

/-- An unsigned number: decimal, or hexadecimal after `0x` (R83). That leading zeros are read, and that `0X` is not, is the
model's choice. DESIGN CHOICE (notes/assumptions/16.md). -/
def natValue? : List Char → Option Nat
  | '0' :: 'x' :: cs => digitsValue? 16 0 cs
  | cs => digitsValue? 10 0 cs

/-- A number with an optional leading `-`. R83 gives the `-` to decimal integers and is silent on one before `0x`; reading
`-0x10` as -16 is the model's choice. DESIGN CHOICE (notes/assumptions/16.md). -/
def intValue? : List Char → Option Int
  | '-' :: cs => (natValue? cs).map fun n => -(n : Int)
  | cs => (natValue? cs).map fun n => (n : Int)

/-- An unsigned operand; a value its field cannot hold is not read. DESIGN CHOICE (notes/assumptions/16.md). -/
def unsignedField? (n : Nat) (cs : List Char) : Option (BitVec n) :=
  ((natValue? cs).filter fun v => v < 2 ^ n).map (BitVec.ofNat n)

/-- A signed 16-bit operand (R68); a value the field cannot hold is not read, and a hexadecimal number is its unsigned
value. DESIGN CHOICE (notes/assumptions/16.md). -/
def signedField? (cs : List Char) : Option (BitVec 16) :=
  ((intValue? cs).filter fun v => -32768 ≤ v && v ≤ 32767).map (BitVec.ofInt 16)

/-- A pixel `#RRGGBBAA`. -/
def pixelField? : List Char → Option (BitVec 32)
  | '#' :: cs => if cs.length = 8 then (digitsValue? 16 0 cs).map (BitVec.ofNat 32) else none
  | _ => none

/-- A mode by its name, `xy` being accepted for `both`. -/
def modeField? (cs : List Char) : Option (BitVec 3) :=
  if cs = "xy".toList then some (modeCode .both)
  else (allModes.find? fun mode => (modeName mode).toList == cs).map modeCode

/-- The text before the first character `sep`, and the text after it if there is one. -/
def splitFirst (sep : Char) : List Char → List Char × Option (List Char)
  | [] => ([], none)
  | c :: cs =>
    if c = sep then ([], some cs)
    else
      let (before, rest) := splitFirst sep cs
      (c :: before, rest)

/-- The operands of a command, separated by commas (R83). That every space is left out, one inside an operand too, is the
model's choice. DESIGN CHOICE (notes/assumptions/16.md). -/
def splitOperands : List Char → List (List Char)
  | [] => [[]]
  | c :: cs =>
    if c = ',' then [] :: splitOperands cs
    else if c = ' ' then splitOperands cs
    else match splitOperands cs with
      | [] => [[c]]
      | t :: ts => (c :: t) :: ts

/-- The operand texts after a mnemonic; none where nothing follows it. -/
def operandList (rest : Option (List Char)) : List (List Char) :=
  match rest with
  | none => []
  | some cs => if cs.all (· == ' ') then [] else splitOperands cs

/-- The command of a mnemonic and its operands. -/
def readOperands? (op : Opcode) (ts : List (List Char)) : Option Instr :=
  match op, ts with
  | .symSetdim, [w, h] => (signedField? w).bind fun w => (signedField? h).map fun h => .symSetdim w h
  | .symSetmode, [m] => (modeField? m).map .symSetmode
  | .symMap, [x, y] => (signedField? x).bind fun x => (signedField? y).map fun y => .symMap x y
  | .bldVclr, [] => some .bldVclr
  | .bldLighten, [x, y, p] =>
    (unsignedField? 8 x).bind fun x => (unsignedField? 8 y).bind fun y => (pixelField? p).map fun p => .bldLighten x y p
  | .bldDarken, [x, y, p] =>
    (unsignedField? 8 x).bind fun x => (unsignedField? 8 y).bind fun y => (pixelField? p).map fun p => .bldDarken x y p
  | .qntQuant, [p] => (pixelField? p).map .qntQuant
  | .qntPalrd, [i] => (unsignedField? 8 i).map .qntPalrd
  | .lzwStart, [] => some .lzwStart
  | .lzwPut, [k] => (unsignedField? 8 k).map .lzwPut
  | .lzwFinish, [] => some .lzwFinish
  | _, _ => none

/-- The commands of one written line (R83), a pseudo-instruction being its expansion (R84). -/
def readLine? (line : List Char) : Option (List Instr) :=
  let (name, rest) := splitFirst ' ' line
  let ts := operandList rest
  if name = "BLD.STROKE_BEGIN".toList then if ts = [] then some strokeBegin else none
  else if name = "BLD.STROKE_END".toList then if ts = [] then some strokeEnd else none
  else if name = "LZW.ENCODE".toList then (ts.mapM (unsignedField? 8)).map lzwEncode
  else (Opcode.all.find? fun op => (mnemonic op).toList == name).bind fun op => (readOperands? op ts).map fun i => [i]

end Sys2Proof.Machine
end

