-- ==== Sys2Proof/Safety.lean ====
section
/-! DEFINITION. The terms claims are stated in: the fields of the output words, the invariants of the state, the bits of
the codestream, the shape of the byte port's output, runs of commands, and the reading side of the codestream. -/

namespace Sys2Proof.Machine

/-! ### Fields of the output words (R72, R74, R76) -/

/-- `RW[63:56]`. -/
def rwOp (w : ResponseWord) : BitVec 8 := w.extractLsb' 56 8

/-- `RW[55:52]`, `STATUS`. -/
def rwStatus (w : ResponseWord) : BitVec 4 := w.extractLsb' 52 4

/-- `RW[51:48]`, `KIND`. -/
def rwKind (w : ResponseWord) : BitVec 4 := w.extractLsb' 48 4

/-- `RW[47:0]`, the payload. -/
def rwPayload (w : ResponseWord) : BitVec 48 := w.extractLsb' 0 48

/-- `OB[7:0]`, the byte. -/
def beatData (b : Beat) : Nat := b.toNat % 256

/-- `OB[8]`, `SB_LAST`. -/
def beatSbLast (b : Beat) : Bool := b.getLsbD 8

/-- `OB[9]`, `LAST`. -/
def beatLast (b : Beat) : Bool := b.getLsbD 9

/-! ### Units (R35) -/

/-- Whether a command is one of `SYM`. -/
def isSym (i : Instr) : Bool :=
  match i.opcode with
  | .symSetdim | .symSetmode | .symMap => true
  | .bldVclr | .bldLighten | .bldDarken | .qntQuant | .qntPalrd | .lzwStart | .lzwPut | .lzwFinish => false

/-- Whether a command is one of `BLD`. -/
def isBld (i : Instr) : Bool :=
  match i.opcode with
  | .bldVclr | .bldLighten | .bldDarken => true
  | .symSetdim | .symSetmode | .symMap | .qntQuant | .qntPalrd | .lzwStart | .lzwPut | .lzwFinish => false

/-- Whether a command is one of `LZW`. -/
def isLzw (i : Instr) : Bool :=
  match i.opcode with
  | .lzwStart | .lzwPut | .lzwFinish => true
  | .symSetdim | .symSetmode | .symMap | .bldVclr | .bldLighten | .bldDarken | .qntQuant | .qntPalrd => false

/-! ### Invariants -/

/-- The extents are those of a canvas (R17, R34). -/
def ExtentsWf (r : SymRegs) : Prop := 1 ≤ r.w.toNat ∧ r.w.toNat ≤ 256 ∧ 1 ≤ r.h.toNat ∧ r.h.toNat ≤ 256

/-- The canonical form of the visited set: strictly rising, so equal sets are equal lists. -/
abbrev VisWf (vis : List Cell) : Prop := vis.Pairwise (· < ·)

/-- The least width in 9 to 12 that holds the codes below `nextCode` (R27). -/
def widthFor (nextCode : Nat) : Nat :=
  if nextCode ≤ 512 then 9 else if nextCode ≤ 1024 then 10 else if nextCode ≤ 2048 then 11 else 12

/-- Whether a code names a string while the next free code is `nextCode` (R26, R46): a literal, or a code given to a
string, never CLEAR or END. -/
def codeNames (nextCode : Nat) (c : Code) : Prop := c.toNat < 256 ∨ (258 ≤ c.toNat ∧ c.toNat < nextCode)

/-- What holds of the LZW elements between commands while an encode is open (R26 to R29, R33). -/
structure LzwWf (l : LzwRegs) : Prop where
  /-- `NEXT` is a legal value (R26). -/
  next_range : 258 ≤ l.nextCode.toNat ∧ l.nextCode.toNat ≤ 4096
  /-- The rows carry exactly the codes 258 to `NEXT` − 1, each once, in order (R26, R33(c), R33(d)). -/
  codes_exact : l.dict.map (fun row => row.code.toNat) = List.range' 258 (l.nextCode.toNat - 258)
  /-- Every row extends a literal or an older string (R33(b)). -/
  rows_closed : ∀ row ∈ l.dict, codeNames row.code.toNat row.pcode
  /-- No string has two rows (R47, R51). -/
  keys_distinct : (l.dict.map fun row => (row.pcode, row.sym)).Nodup
  /-- `WIDTH` is the least width that holds every code that can be emitted next (R27). -/
  width_least : l.width.toNat = widthFor l.nextCode.toNat
  /-- `PREFIX` is the empty string or a key (R28). -/
  prefix_key : ∀ p, l.pfx = some p → codeNames l.nextCode.toNat p
  /-- Fewer than 8 bits are pending (R29). -/
  pending_bits : l.nbits.toNat ≤ 7
  /-- The accumulator holds the pending bits and nothing above them (R29). -/
  acc_bound : l.acc.toNat < 2 ^ l.nbits.toNat
  /-- The open sub-block is not full (R33(f)). -/
  bcnt_bound : l.bcnt.toNat ≤ 254

/-- The invariant of the block: legal extents (R34), the canonical visited set, the fixed palette (R23), and, while an
encode is open, R33. -/
structure Inv (s : State) : Prop where
  extents : ExtentsWf s.sym
  visited : VisWf s.vis
  palette : s.pal = Config.palette
  encode : s.lzw.phase = .active → LzwWf s.lzw

/-! ### Bits of the codestream (R55) -/

/-- The `n` low bits of a value, the least significant first. -/
def lowBits (n v : Nat) : List Bool := (List.range n).map v.testBit

/-- The bits of the output bytes, in output order. -/
def beatBits (bs : List Beat) : List Bool := (bs.map fun b => lowBits 8 (beatData b)).flatten

/-- The bits of the emitted codes, each at the width it was emitted with. -/
def codeBits (cs : List (Code × BitVec 4)) : List Bool := (cs.map fun c => lowBits c.2.toNat c.1.toNat).flatten

/-- While an encode is open, the codes emitted since `LZW.START` are, bit for bit, the newest bytes of `OUT` followed by
the pending bits: no padding, no bit lost, none pending that is older than one output (R55). -/
def Packed (s : State) : Prop :=
  s.lzw.phase = .active →
    ∃ older newer, s.out = older ++ newer ∧
      beatBits newer ++ lowBits s.lzw.nbits.toNat s.lzw.acc.toNat = codeBits s.codes

/-! ### Sub-blocks (R82) -/

/-- Reads beats from a point where `n` beats of the open sub-block have passed, and answers how many have passed at the
end: a sub-block closes at its 255th beat or at the last beat of its codestream, never earlier and never later, and only
a closing beat is the last of a codestream. -/
def scanSubBlocks (n : Nat) : List Beat → Option Nat
  | [] => some n
  | b :: bs =>
    if beatSbLast b then
      if n + 1 = 255 ∨ (n + 1 < 255 ∧ beatLast b) then scanSubBlocks 0 bs else none
    else if n + 1 < 255 ∧ !beatLast b then scanSubBlocks (n + 1) bs else none

/-- `OUT` is cut into sub-blocks as R82 says, and `BCNT` counts the beats of the open one; none is open between
encodes. -/
def SubBlocksCut (s : State) : Prop :=
  scanSubBlocks 0 s.out = some (match s.lzw.phase with | .active => s.lzw.bcnt.toNat | .idle => 0)

/-! ### Output of one or more codes, in numbers (R150) -/

/-- The beats `bs` carry the `8 · |bs|` low bits of `total`, eight to a byte, the oldest first. -/
def carriesLowBits (bs : List Beat) (total : Nat) : Prop :=
  bs.map beatData = (List.range bs.length).map fun j => total / 256 ^ j % 256

/-! ### Strings of the dictionary (R47, R52) -/

/-- The row of a code. -/
def rowOf? (dict : List DictRow) (c : Code) : Option DictRow := dict.find? fun row => row.code == c

/-- The string of a code, read by at most `fuel` rows: a literal is itself; the string of a row is the string of its
prefix code followed by its symbol. -/
def stringOf (dict : List DictRow) : (fuel : Nat) → Code → Option (List Symbol)
  | 0, _ => none
  | fuel + 1, c =>
    if c.toNat < 256 then some [c.setWidth 8]
    else (rowOf? dict c).bind fun row => (stringOf dict fuel row.pcode).map fun str => str ++ [row.sym]

/-- The string a code names in a dictionary: no string is longer than the rows are many, plus one. -/
def codeString (dict : List DictRow) (c : Code) : Option (List Symbol) := stringOf dict (dict.length + 1) c

/-- `PREFIX` as a string: empty for the empty string. -/
def prefixString (l : LzwRegs) : Option (List Symbol) :=
  match l.pfx with
  | none => some []
  | some p => codeString l.dict p

/-! ### Runs of commands -/

/-- A sequence of commands, each to completion before the next (R59); none if one of them has no next state. -/
def runInstrs : List Instr → State → Option State
  | [], s => some s
  | i :: is, s =>
    match exec i s with
    | .next t => runInstrs is t
    | .fault _ => none
    | .refused _ => none

/-! ### The reading side of a codestream (93 G1; 95 section 7)

The reference decoder, at the level of codes. It is no part of the block: it is what "GIF-compatible" is measured with.
From general knowledge, as the spec marks it (93_implementation_defined.md G1). -/

/-- The decoder's state: the strings of the codes from 258 on, the previous code's string, the code width it reads
with, and what it has produced. -/
structure DecoderState where
  table : List (List Symbol)
  prev  : Option (List Symbol)
  width : Nat
  out   : List Symbol
  deriving DecidableEq, Repr

/-- A decoder that has read nothing. -/
def DecoderState.start : DecoderState := { table := [], prev := none, width := 9, out := [] }

/-- The string of a code in the decoder's table; the code about to be added is the previous string and its own first
symbol. -/
def decoderString (d : DecoderState) (c : Code) : Option (List Symbol) :=
  if c.toNat < 256 then some [c.setWidth 8]
  else if c.toNat < 258 then none
  else
    match d.table[c.toNat - 258]? with
    | some str => some str
    | none =>
      if c.toNat = 258 + d.table.length then d.prev.map fun str => str ++ str.take 1 else none

/-- One code read by the decoder at the width it expects; a code written at another width is not read. -/
def decoderRead (d : DecoderState) (cw : Code × BitVec 4) : Option DecoderState :=
  if cw.2.toNat ≠ d.width then none
  else if cw.1 = Config.clearCode then some { d with table := [], prev := none, width := 9 }
  else
    (decoderString d cw.1).map fun str =>
      match d.prev with
      | none => { d with prev := some str, out := d.out ++ str }
      | some prev =>
        let grown := if 258 + d.table.length < 4096 then d.table ++ [prev ++ str.take 1] else d.table
        let width := if 258 + grown.length = 2 ^ d.width ∧ d.width < 12 ∧ grown.length ≠ d.table.length
          then d.width + 1 else d.width
        { table := grown, prev := some str, width := width, out := d.out ++ str }

/-- The decoder run over a sequence of codes. -/
def decoderRun : List (Code × BitVec 4) → DecoderState → Option DecoderState
  | [], d => some d
  | cw :: cws, d => (decoderRead d cw).bind (decoderRun cws)

end Sys2Proof.Machine
end

