-- ==== Sys2Proof/WellFormed.lean ====
section
/-! DEFINITION. When a command's operands are legal. The field widths of `Instr` leave one check: the operand value that
R65 and R182(c) refuse. -/

namespace Sys2Proof

/-- Whether every operand has a legal value: all do, but `M` = 7 of `SYM.SETMODE`, the reserved mode code (R71, R94).
An ill-formed command still decodes (R65); its meaning refuses it (R182(c)). -/
def Instr.wellFormed : Instr → Bool
  | .symSetdim _ _ => true
  | .symSetmode m => m != 7#3
  | .symMap _ _ => true
  | .bldVclr => true
  | .bldLighten _ _ _ => true
  | .bldDarken _ _ _ => true
  | .qntQuant _ => true
  | .qntPalrd _ => true
  | .lzwStart => true
  | .lzwPut _ => true
  | .lzwFinish => true

end Sys2Proof
end

