-- ==== Sys2Proof/Certificates/Slice0/Obligations.lean ====
section
/-! DEFINITION. The statements for the provers. Numbers of output words are written out from the layouts of R72 to R76,
not with the model's own word builders. -/

open Sys2Proof Sys2Proof.Machine

/-! ### Encoding and the step -/

/-- R62, R64, R65: encoding drops no operand bit; the decoder reads every command back, the ill-formed one too. -/
def Obligations.DecodeOfEncode : Prop := ∀ i : Instr, decode (encode i) = .ok i

/-- R62, R64, R65: a word that decodes is the only word of its command. -/
def Obligations.EncodeOfDecode : Prop := ∀ (cw : CommandWord) (i : Instr), decode cw = .ok i → encode i = cw

/-- R67: the match and mask values of the eleven rows; a word that selects a row decodes to a command of that row; a
word that selects none decodes to nothing; no two rows select the same word. -/
def Obligations.RowsSelectCommands : Prop :=
  (Opcode.all.map fun op => (op.pattern, op.mask)) =
    [(0x1000000000000000#64, 0xFFFFFFFF00000000#64), (0x1100000000000000#64, 0xFFFFFFFFFFFFFFF8#64),
     (0x1200000000000000#64, 0xFFFFFFFF00000000#64), (0x2000000000000000#64, 0xFFFFFFFFFFFFFFFF#64),
     (0x2100000000000000#64, 0xFFFF000000000000#64), (0x2200000000000000#64, 0xFFFF000000000000#64),
     (0x3000000000000000#64, 0xFFFFFFFF00000000#64), (0x3100000000000000#64, 0xFFFFFFFFFFFFFF00#64),
     (0x4000000000000000#64, 0xFFFFFFFFFFFFFFFF#64), (0x4100000000000000#64, 0xFFFFFFFFFFFFFF00#64),
     (0x4200000000000000#64, 0xFFFFFFFFFFFFFFFF#64)] ∧
  (∀ op : Opcode, op ∈ Opcode.all) ∧
  (∀ (op : Opcode) (cw : CommandWord),
    cw &&& op.mask = op.pattern ↔ ∃ i, decode cw = .ok i ∧ i.opcode = op) ∧
  (∀ (op op' : Opcode) (cw : CommandWord),
    cw &&& op.mask = op.pattern → cw &&& op'.mask = op'.pattern → op = op')

/-- R65, R66, R181: a word that decodes to nothing is refused with status 1, its opcode byte echoed, and changes
nothing. -/
def Obligations.UndecodableWordRefused : Prop :=
  ∀ (s : State) (cw : CommandWord) (rest : List HostEvent) (r : Reject),
    s.inbox = .command cw :: rest → decode cw = .error r →
      ∃ w : ResponseWord, step s = .next { s with inbox := rest, rsp := s.rsp ++ [w] } ∧
        w.toNat = cw.toNat / 2 ^ 56 * 2 ^ 56 + 1 * 2 ^ 52

/-- Five words written out from R63 and R64 decode to the commands they stand for. -/
def Obligations.WrittenWordsDecode : Prop :=
  decode 0x100000000101FFFB#64 = .ok (.symSetdim 0xFFFB#16 257#16) ∧
  decode 0x21000001F0101080#64 = .ok (.bldLighten 1#8 0#8 0xF0101080#32) ∧
  decode 0x31000000000000D8#64 = .ok (.qntPalrd 216#8) ∧
  decode 0x41000000000000B5#64 = .ok (.lzwPut 181#8) ∧
  decode 0x4180000000000009#64 = .error .reservedBits

/-- R2, R59: with a command word first in line, one step is the whole execution of the command it decodes to. -/
def Obligations.StepRunsDecoded : Prop :=
  ∀ (s : State) (cw : CommandWord) (rest : List HostEvent) (i : Instr),
    s.inbox = .command cw :: rest → decode cw = .ok i → step s = exec i { s with inbox := rest }

/-- A word stored where the step fetches is the very next thing it runs. The command port as a list of presented events
is the model's choice (notes/assumptions/1.md). -/
def Obligations.FetchWordRunsNext : Prop :=
  ∀ (s : State) (w : Nat) (i : Instr), decodeTableWord 64 w = some i → step (s.withFetchWord 64 w) = exec i s

/-- R200, R23: reset leaves `W` = `H` = 1, `MODE` none, `VIS` empty, `PHASE` IDLE, the streams empty and `PAL`
unchanged. What it does with the events presented after it is the model's choice (notes/assumptions/3.md). -/
def Obligations.ResetEvent : Prop :=
  ∀ (s : State) (rest : List HostEvent), s.inbox = .reset :: rest →
    ∃ t, step s = .next t ∧ t.sym = { w := 1, h := 1, mode := .none } ∧ t.vis = [] ∧ t.lzw.phase = .idle ∧
      t.pal = s.pal ∧ t.rsp = [] ∧ t.out = [] ∧ t.codes = [] ∧ t.inbox = rest

/-- R16, R19, R22, R32, R36, R41: the reset values the spec gives, the fixed contents of `PAL` among them. -/
def Obligations.ResetValues : Prop :=
  State.reset.sym.w.toNat = 1 ∧ State.reset.sym.h.toNat = 1 ∧ State.reset.sym.mode = .none ∧ State.reset.vis = [] ∧
  State.reset.lzw.phase = .idle ∧ State.reset.rsp = [] ∧ State.reset.out = [] ∧ State.reset.codes = [] ∧
  State.reset.pal = Config.palette

/-! ### The whole machine -/

/-- R187, R60, R181: every command word in every state is executed with status 0, or refused with status 1 or 2 and
then one response word is all that changed. -/
def Obligations.EveryWordHasOneOutcome : Prop :=
  ∀ (cw : CommandWord) (s : State), ∃ (t : State) (w : ResponseWord) (points : List ResponseWord),
    runWord cw s = .next t ∧ t.rsp = s.rsp ++ w :: points ∧
    (rwStatus w = 0#4 ∨ ((rwStatus w = 1#4 ∨ rwStatus w = 2#4) ∧ t = { s with rsp := s.rsp ++ [w] }))

/-- R187: no step faults and none is refused by the model: every state has a next state. The step that waits, and reset
as a step, are the model's choice (notes/assumptions/2.md, 3.md). -/
def Obligations.EveryStepHasNextState : Prop := ∀ s : State, ∃ t, step s = .next t

/-- R72: exactly one result word, the command's opcode byte echoed, `KIND` 0, payload 0 when the status is not 0; only
`SYM.MAP` appends further words, and they have `KIND` 1. -/
def Obligations.OneResultWord : Prop :=
  ∀ (cw : CommandWord) (s t : State), runWord cw s = .next t →
    ∃ (w : ResponseWord) (points : List ResponseWord), t.rsp = s.rsp ++ w :: points ∧
      rwOp w = cw.extractLsb' 56 8 ∧ rwKind w = 0#4 ∧ (rwStatus w ≠ 0#4 → rwPayload w = 0#48) ∧
      (rwOp w ≠ 0x12#8 → points = []) ∧ ∀ p ∈ points, rwKind p = 1#4

/-- R182, R184: the exact causes of the two refusals. -/
def Obligations.RefusalCauses : Prop :=
  ∀ (cw : CommandWord) (s t : State) (w : ResponseWord) (points : List ResponseWord),
    runWord cw s = .next t → t.rsp = s.rsp ++ w :: points →
      (rwStatus w = 1#4 ↔
        (∀ op : Opcode, op.byte ≠ cw.extractLsb' 56 8) ∨
        (∃ op : Opcode, op.byte = cw.extractLsb' 56 8 ∧ cw &&& op.mask ≠ op.pattern) ∨
        cw = 0x1100000000000007#64) ∧
      (rwStatus w = 2#4 ↔
        (cw = 0x4000000000000000#64 ∧ s.lzw.phase = .active) ∨
        (cw &&& 0xFFFFFFFFFFFFFF00#64 = 0x4100000000000000#64 ∧ s.lzw.phase = .idle) ∨
        (cw = 0x4200000000000000#64 ∧ s.lzw.phase = .idle)) ∧
      (rwStatus w = 0#4 ∨ rwStatus w = 1#4 ∨ rwStatus w = 2#4)

/-- R35, R23: a command writes no state of another unit, and none writes `PAL`. -/
def Obligations.CommandsKeepOtherUnits : Prop :=
  ∀ (i : Instr) (s t : State), exec i s = .next t →
    t.pal = s.pal ∧ t.inbox = s.inbox ∧
    (isSym i = false → t.sym = s.sym) ∧
    (isBld i = false → t.vis = s.vis) ∧
    (isLzw i = false → t.lzw = s.lzw ∧ t.out = s.out ∧ t.codes = s.codes ∧ t.freeCtr = s.freeCtr)

/-- R35: the results of a unit's command depend on that unit's state alone, whatever the rest of the machine holds. The
counter of free values stands with the LZW state, as the model's own field (notes/assumptions/5.md). -/
def Obligations.ResultsDependOnOwnUnit : Prop :=
  ∀ (i : Instr) (s s' t t' : State), exec i s = .next t → exec i s' = .next t' →
    (isSym i = true → s.sym = s'.sym) → (isBld i = true → s.vis = s'.vis) →
    (isLzw i = true → s.lzw = s'.lzw ∧ s.freeCtr = s'.freeCtr ∧ s.codes = s'.codes) →
    (isSym i = false → isBld i = false → isLzw i = false → s.pal = s'.pal) →
      (∃ answers beats, t.rsp = s.rsp ++ answers ∧ t'.rsp = s'.rsp ++ answers ∧
        t.out = s.out ++ beats ∧ t'.out = s'.out ++ beats) ∧
      (isSym i = true → t.sym = t'.sym) ∧ (isBld i = true → t.vis = t'.vis) ∧
      (isLzw i = true → t.lzw = t'.lzw ∧ t.codes = t'.codes)

/-- R36: a command removes nothing from `RSP` or `OUT`. -/
def Obligations.StreamsOnlyGrow : Prop :=
  ∀ (i : Instr) (s t : State), exec i s = .next t → s.rsp <+: t.rsp ∧ s.out <+: t.out

/-- R23, R44: no step changes the palette, reset included. -/
def Obligations.PaletteNeverChanges : Prop := ∀ s t : State, step s = .next t → t.pal = s.pal

/-! ### Invariants -/

/-- R34, R33, R26 to R29: every step keeps the legal extents, the canonical visited set, the fixed palette and, while an
encode is open, all that R33 says of the LZW elements. -/
def Obligations.StepKeepsInvariant : Prop := ∀ s t : State, Inv s → step s = .next t → Inv t

/-- R55, R29: every step keeps the codes emitted since `LZW.START` equal, bit for bit, to the newest output bytes
followed by the pending bits. -/
def Obligations.StepKeepsCodesPacked : Prop :=
  ∀ s t : State, Inv s → Packed s → step s = .next t → Packed t

/-- R82, R151, R30: every step keeps `OUT` cut into sub-blocks greedily, `BCNT` counting the open one. -/
def Obligations.StepKeepsSubBlocks : Prop :=
  ∀ s t : State, Inv s → SubBlocksCut s → step s = .next t → SubBlocksCut t

/-- The reset state has every invariant above. -/
def Obligations.ResetHasInvariants : Prop := Inv State.reset ∧ Packed State.reset ∧ SubBlocksCut State.reset

/-! ### `SYM` -/

/-- R92: `SYM.SETDIM` completes in every state; `W` and `H` are the signed operands clamped into [1,256], the answer
carries them, and nothing else changes. -/
def Obligations.SetdimClamps : Prop :=
  ∀ (wreq hreq : BitVec 16) (s : State), ∃ (w h : BitVec 9) (word : ResponseWord),
    exec (.symSetdim wreq hreq) s =
      .next { s with sym := { s.sym with w := w, h := h }, rsp := s.rsp ++ [word] } ∧
    (w.toNat : Int) = max 1 (min 256 wreq.toInt) ∧ (h.toNat : Int) = max 1 (min 256 hreq.toInt) ∧
    word.toNat = 0x10 * 2 ^ 56 + h.toNat * 2 ^ 16 + w.toNat

/-- R94, R71: `SYM.SETMODE` of a code below 7 sets the mode of that code, in the order none, horizontal, vertical, both,
central, diagonal, antidiagonal, and answers it; of 7 it is refused and nothing else changes. -/
def Obligations.SetmodeSetsMode : Prop :=
  ∀ (m : BitVec 3) (s : State),
    (m ≠ 7#3 → ∃ (mode : MirrorMode) (word : ResponseWord),
      exec (.symSetmode m) s =
        .next { s with sym := { s.sym with mode := mode }, rsp := s.rsp ++ [word] } ∧
      [MirrorMode.none, .horizontal, .vertical, .both, .central, .diagonal, .antidiagonal][m.toNat]? = some mode ∧
      word.toNat = 0x11 * 2 ^ 56 + m.toNat) ∧
    (m = 7#3 → exec (.symSetmode m) s = .next { s with rsp := s.rsp ++ [0x1110000000000000#64] })

/-- R96, R74: `SYM.MAP` with legal extents completes: it answers the number of points of `mirror`, then the points in
order with their positions and the last one marked, and changes nothing else. -/
def Obligations.MapAnswersMirror : Prop :=
  ∀ (x y : BitVec 16) (s : State), ExtentsWf s.sym →
    ∃ (ps : List Point) (word : ResponseWord) (points : List ResponseWord),
      ps = mirror s.sym.w.toNat s.sym.h.toNat s.sym.mode ⟨x.toInt, y.toInt⟩ ∧
      exec (.symMap x y) s = .next { s with rsp := s.rsp ++ word :: points } ∧
      word.toNat = 0x12 * 2 ^ 56 + ps.length ∧ points.length = ps.length ∧
      ∀ (j : Nat) (p : Point), ps[j]? = some p → ∃ word' : ResponseWord, points[j]? = some word' ∧
        (word'.toNat : Int) = 0x12 * 2 ^ 56 + 1 * 2 ^ 48 + (if j + 1 = ps.length then 2 ^ 19 else 0) + j * 2 ^ 16
          + p.y * 2 ^ 8 + p.x

/-- R97, R98: the points of `mirror` are the origin and its images under the mode, those of them that lie in the
canvas. -/
def Obligations.MirrorPoints : Prop :=
  ∀ (w h x y px py : Int) (mode : MirrorMode),
    (⟨px, py⟩ : Point) ∈ mirror w h mode ⟨x, y⟩ ↔
      (0 ≤ px ∧ px < w ∧ 0 ≤ py ∧ py < h) ∧
      ((px = x ∧ py = y) ∨
       ((mode = .horizontal ∨ mode = .both) ∧ px = w - 1 - x ∧ py = y) ∨
       ((mode = .vertical ∨ mode = .both) ∧ px = x ∧ py = h - 1 - y) ∨
       ((mode = .both ∨ mode = .central) ∧ px = w - 1 - x ∧ py = h - 1 - y) ∨
       (mode = .diagonal ∧ px = y ∧ py = x) ∨
       (mode = .antidiagonal ∧ px = w - 1 - y ∧ py = h - 1 - x))

/-- R97, R99: the candidate sequence of each mode, written out, and the points keep the order of their first occurrence in
it, so none occurs twice. The order inside the sequences is the spec's own choice (R97, D11, N14), and so is the survival
of the first duplicate (D11): the document says "ordered set" without an order. -/
def Obligations.MirrorKeepsFirstOccurrences : Prop :=
  (∀ w h x y : Int,
    candidates w h .none ⟨x, y⟩ = [⟨x, y⟩] ∧
    candidates w h .horizontal ⟨x, y⟩ = [⟨x, y⟩, ⟨w - 1 - x, y⟩] ∧
    candidates w h .vertical ⟨x, y⟩ = [⟨x, y⟩, ⟨x, h - 1 - y⟩] ∧
    candidates w h .both ⟨x, y⟩ = [⟨x, y⟩, ⟨w - 1 - x, y⟩, ⟨x, h - 1 - y⟩, ⟨w - 1 - x, h - 1 - y⟩] ∧
    candidates w h .central ⟨x, y⟩ = [⟨x, y⟩, ⟨w - 1 - x, h - 1 - y⟩] ∧
    candidates w h .diagonal ⟨x, y⟩ = [⟨x, y⟩, ⟨y, x⟩] ∧
    candidates w h .antidiagonal ⟨x, y⟩ = [⟨x, y⟩, ⟨w - 1 - y, h - 1 - x⟩]) ∧
  (∀ (w h : Int) (mode : MirrorMode) (p : Point),
    ((mirror w h mode p).map fun q => (candidates w h mode p).idxOf q).Pairwise (· < ·) ∧
    (mirror w h mode p).Nodup)

/-- R100: for an origin inside the canvas, the first point is the origin. -/
def Obligations.MirrorOriginFirst : Prop :=
  ∀ (w h x y : Int) (mode : MirrorMode), 0 ≤ x → x < w → 0 ≤ y → y < h →
    (mirror w h mode ⟨x, y⟩).head? = some ⟨x, y⟩

/-- R101: every point lies in the canvas, for every mode and every origin; with extents of at most 256 both coordinates
are in 0..255. -/
def Obligations.MirrorInsideCanvas : Prop :=
  ∀ (w h : Int) (mode : MirrorMode) (p q : Point), q ∈ mirror w h mode p →
    (0 ≤ q.x ∧ q.x < w ∧ 0 ≤ q.y ∧ q.y < h) ∧ (w ≤ 256 → h ≤ 256 → q.x ≤ 255 ∧ q.y ≤ 255)

/-- R102: the number of points for each mode, inside and outside the canvas. -/
def Obligations.MirrorCounts : Prop :=
  (∀ (w h : Int) (mode : MirrorMode) (p : Point),
    (mirror w h mode p).length ≤ (match mode with | .none => 1 | .both => 4 | _ => 2) ∧
    (inCanvas w h p = true → 1 ≤ (mirror w h mode p).length) ∧
    (inCanvas w h p = false → mode = .none ∨ mode = .horizontal ∨ mode = .vertical ∨ mode = .both ∨ mode = .central →
      mirror w h mode p = []) ∧
    (inCanvas w h p = false → (mirror w h mode p).length ≤ 1 ∧ p ∉ mirror w h mode p)) ∧
  mirror 4 8 .diagonal ⟨5, 2⟩ = [⟨2, 5⟩]

/-- R103: the image of horizontal, vertical and central of a point inside the canvas is inside, and its own image is the
point; diagonal and antidiagonal can leave the canvas where `W` ≠ `H`. -/
def Obligations.ReflectionsAreInvolutions : Prop :=
  (∀ (w h : Int) (mode : MirrorMode) (p : Point), mode = .horizontal ∨ mode = .vertical ∨ mode = .central →
    inCanvas w h p = true →
      ∃ q, candidates w h mode p = [p, q] ∧ inCanvas w h q = true ∧ candidates w h mode q = [q, p]) ∧
  (∃ (w h : Int) (p q q' : Point), w ≠ h ∧ inCanvas w h p = true ∧
    candidates w h .diagonal p = [p, q] ∧ inCanvas w h q = false ∧
    candidates w h .antidiagonal p = [p, q'] ∧ inCanvas w h q' = false)

/-- R104: the deduplication cases, for an origin inside the canvas. -/
def Obligations.MirrorDeduplicates : Prop :=
  ∀ (w h x y : Int), 0 ≤ x → x < w → 0 ≤ y → y < h →
    (2 * x = w - 1 → mirror w h .horizontal ⟨x, y⟩ = [⟨x, y⟩]) ∧
    (2 * y = h - 1 → mirror w h .vertical ⟨x, y⟩ = [⟨x, y⟩]) ∧
    (2 * x = w - 1 → 2 * y = h - 1 → mirror w h .central ⟨x, y⟩ = [⟨x, y⟩]) ∧
    (x = y → mirror w h .diagonal ⟨x, y⟩ = [⟨x, y⟩]) ∧
    (w - 1 - y = x → h - 1 - x = y → mirror w h .antidiagonal ⟨x, y⟩ = [⟨x, y⟩]) ∧
    (x + y = w - 1 → w = h → mirror w h .antidiagonal ⟨x, y⟩ = [⟨x, y⟩]) ∧
    (2 * x = w - 1 → 2 * y ≠ h - 1 → mirror w h .both ⟨x, y⟩ = [⟨x, y⟩, ⟨x, h - 1 - y⟩]) ∧
    (2 * y = h - 1 → 2 * x ≠ w - 1 → mirror w h .both ⟨x, y⟩ = [⟨x, y⟩, ⟨w - 1 - x, y⟩]) ∧
    (2 * x = w - 1 → 2 * y = h - 1 → mirror w h .both ⟨x, y⟩ = [⟨x, y⟩])

/-! ### `BLD` -/

/-- R112: `BLD.VCLR` completes in every state: `VIS` is empty and nothing else changes but the answer. -/
def Obligations.VclrEmptiesVisited : Prop :=
  ∀ s : State, exec .bldVclr s = .next { s with vis := [], rsp := s.rsp ++ [0x2000000000000000#64] }

/-- R113, R114, R53: `BLD.LIGHTEN` completes in every state. `VIS` gains the cell and no other; a visited cell answers
`SKIP` 1, a transparent one `SKIP` 2, both with the pixel as it came; any other answers `APPLIED` and 24 more on each
colour channel, at most 255, alpha unchanged. -/
def Obligations.LightenOncePerCell : Prop :=
  ∀ (cx cy : BitVec 8) (r g b a : BitVec 8) (s : State), ∃ (vis : List Cell) (word : ResponseWord),
    exec (.bldLighten cx cy (r ++ g ++ b ++ a)) s = .next { s with vis := vis, rsp := s.rsp ++ [word] } ∧
    (∀ c : Cell, c ∈ vis ↔ c.toNat = cy.toNat * 256 + cx.toNat ∨ c ∈ s.vis) ∧
    word.toNat = 0x21 * 2 ^ 56 +
      (if BitVec.ofNat 16 (cy.toNat * 256 + cx.toNat) ∈ s.vis then
        1 * 2 ^ 33 + r.toNat * 2 ^ 24 + g.toNat * 2 ^ 16 + b.toNat * 2 ^ 8 + a.toNat
      else if a.toNat = 0 then 2 * 2 ^ 33 + r.toNat * 2 ^ 24 + g.toNat * 2 ^ 16 + b.toNat * 2 ^ 8 + a.toNat
      else 2 ^ 32 + min 255 (r.toNat + 24) * 2 ^ 24 + min 255 (g.toNat + 24) * 2 ^ 16 + min 255 (b.toNat + 24) * 2 ^ 8
        + a.toNat)

/-- R113, R115, R53: `BLD.DARKEN`, as `BLD.LIGHTEN` with 24 less on each colour channel, at least 0. -/
def Obligations.DarkenOncePerCell : Prop :=
  ∀ (cx cy : BitVec 8) (r g b a : BitVec 8) (s : State), ∃ (vis : List Cell) (word : ResponseWord),
    exec (.bldDarken cx cy (r ++ g ++ b ++ a)) s = .next { s with vis := vis, rsp := s.rsp ++ [word] } ∧
    (∀ c : Cell, c ∈ vis ↔ c.toNat = cy.toNat * 256 + cx.toNat ∨ c ∈ s.vis) ∧
    word.toNat = 0x22 * 2 ^ 56 +
      (if BitVec.ofNat 16 (cy.toNat * 256 + cx.toNat) ∈ s.vis then
        1 * 2 ^ 33 + r.toNat * 2 ^ 24 + g.toNat * 2 ^ 16 + b.toNat * 2 ^ 8 + a.toNat
      else if a.toNat = 0 then 2 * 2 ^ 33 + r.toNat * 2 ^ 24 + g.toNat * 2 ^ 16 + b.toNat * 2 ^ 8 + a.toNat
      else 2 ^ 32 + (r.toNat - 24) * 2 ^ 24 + (g.toNat - 24) * 2 ^ 16 + (b.toNat - 24) * 2 ^ 8 + a.toNat)

/-- R118, R21: after a `BLD.LIGHTEN` or `BLD.DARKEN` of a cell, whatever its pixel, and any commands but `BLD.VCLR`,
both commands for that cell answer `SKIP` 1 and the pixel unchanged. -/
def Obligations.OncePerStroke : Prop :=
  ∀ (i : Instr) (cx cy : BitVec 8) (pix pix' : BitVec 32) (between : List Instr) (s t u : State),
    i = .bldLighten cx cy pix ∨ i = .bldDarken cx cy pix →
    exec i s = .next t → .bldVclr ∉ between → runInstrs between t = some u →
      ∃ (v v' : State) (word word' : ResponseWord),
        exec (.bldLighten cx cy pix') u = .next v ∧ v.rsp = u.rsp ++ [word] ∧
        word.toNat = 0x21 * 2 ^ 56 + 1 * 2 ^ 33 + pix'.toNat ∧
        exec (.bldDarken cx cy pix') u = .next v' ∧ v'.rsp = u.rsp ++ [word'] ∧
        word'.toNat = 0x22 * 2 ^ 56 + 1 * 2 ^ 33 + pix'.toNat

/-- R119, R111: the channel comes back after lighten and darken exactly when lighten did not saturate, and after darken
and lighten exactly when darken did not. -/
def Obligations.LightenDarkenInverse : Prop :=
  ∀ c : BitVec 8,
    (adjust (adjust c 24) (-24) = c ↔ c.toNat ≤ 231) ∧ (adjust (adjust c (-24)) 24 = c ↔ 24 ≤ c.toNat)

/-! ### `QNT` -/

/-- R126: `QNT.QUANT` completes in every state: it answers the palette index and changes nothing else. -/
def Obligations.QuantAnswersIndex : Prop :=
  ∀ (r g b a : BitVec 8) (s : State), ∃ word : ResponseWord,
    exec (.qntQuant (r ++ g ++ b ++ a)) s = .next { s with rsp := s.rsp ++ [word] } ∧
    word.toNat = 0x30 * 2 ^ 56 + (quantize .inputExact s.pal ⟨r, g, b, a⟩).toNat

/-- R136: `QNT.PALRD` completes in every state: it answers the entry, red highest, and changes nothing else. -/
def Obligations.PalrdAnswersEntry : Prop :=
  ∀ (idx : BitVec 8) (s : State), ∃ word : ResponseWord,
    exec (.qntPalrd idx) s = .next { s with rsp := s.rsp ++ [word] } ∧
    word.toNat = 0x31 * 2 ^ 56 + (palRead s.pal idx).r.toNat * 2 ^ 16 + (palRead s.pal idx).g.toNat * 2 ^ 8
      + (palRead s.pal idx).b.toNat

/-- R41, R42: the contents of the palette ROM. -/
def Obligations.PaletteContents : Prop :=
  palRead Config.palette 0#8 = ⟨0, 0, 0⟩ ∧
  (∀ i < 6, ∀ j < 6, ∀ k < 6, palRead Config.palette (BitVec.ofNat 8 (1 + 36 * i + 6 * j + k)) =
    ⟨BitVec.ofNat 8 (51 * i), BitVec.ofNat 8 (51 * j), BitVec.ofNat 8 (51 * k)⟩) ∧
  (∀ n < 24, palRead Config.palette (BitVec.ofNat 8 (217 + n)) =
    ⟨BitVec.ofNat 8 ((510 * n + 23) / 46), BitVec.ofNat 8 ((510 * n + 23) / 46), BitVec.ofNat 8 ((510 * n + 23) / 46)⟩) ∧
  (∀ i, 241 ≤ i → i ≤ 255 → palRead Config.palette (BitVec.ofNat 8 i) = ⟨0, 0, 0⟩)

/-- R45: black is at the 18 indices 0, 1, 217 and 241 to 255, white at 216 and 240, and no other colour occurs twice. -/
def Obligations.PaletteDuplicates : Prop :=
  ∀ i j : BitVec 8,
    (palRead Config.palette i = ⟨0, 0, 0⟩ ↔ i.toNat = 0 ∨ i.toNat = 1 ∨ i.toNat = 217 ∨ 241 ≤ i.toNat) ∧
    (palRead Config.palette i = ⟨255, 255, 255⟩ ↔ i.toNat = 216 ∨ i.toNat = 240) ∧
    (palRead Config.palette i = palRead Config.palette j →
      i = j ∨ palRead Config.palette i = ⟨0, 0, 0⟩ ∨ palRead Config.palette i = ⟨255, 255, 255⟩)

/-- R127: an alpha below 128 gives index 0 whatever the colour, and from 128 on the alpha plays no further part. -/
def Obligations.AlphaThreshold : Prop :=
  ∀ (q : QFast) (pal : Palette) (r g b a a' : BitVec 8),
    (a.toNat < 128 → quantize q pal ⟨r, g, b, a⟩ = 0#8) ∧
    (128 ≤ a.toNat → 128 ≤ a'.toNat → quantize q pal ⟨r, g, b, a⟩ = quantize q pal ⟨r, g, b, a'⟩)

/-- R128: `level` is the nearest of the six levels, in the ranges the rule lists, and the direct index is the cube entry
of the three levels. -/
def Obligations.DirectIndexIsNearestCube : Prop :=
  (∀ c : BitVec 8, level c ≤ 5 ∧ (∀ n ≤ 5, |(c.toNat : Int) - 51 * level c| ≤ |(c.toNat : Int) - 51 * n|) ∧
    (level c = 0 ↔ c.toNat ≤ 25) ∧ (level c = 1 ↔ 26 ≤ c.toNat ∧ c.toNat ≤ 76) ∧
    (level c = 2 ↔ 77 ≤ c.toNat ∧ c.toNat ≤ 127) ∧ (level c = 3 ↔ 128 ≤ c.toNat ∧ c.toNat ≤ 178) ∧
    (level c = 4 ↔ 179 ≤ c.toNat ∧ c.toNat ≤ 229) ∧ (level c = 5 ↔ 230 ≤ c.toNat)) ∧
  (∀ c : Rgb, (direct c).toNat = 1 + (level c.r * 6 + level c.g) * 6 + level c.b ∧
    1 ≤ (direct c).toNat ∧ (direct c).toNat ≤ 216 ∧
    palRead Config.palette (direct c) =
      ⟨BitVec.ofNat 8 (51 * level c.r), BitVec.ofNat 8 (51 * level c.g), BitVec.ofNat 8 (51 * level c.b)⟩)

/-- R130: for any palette, the search answers the least index in 1..255 whose entry is nearest. -/
def Obligations.SearchIsNearestLowest : Prop :=
  ∀ (pal : Palette) (c : Rgb), 1 ≤ (search pal c).toNat ∧
    ∀ j : BitVec 8, 1 ≤ j.toNat →
      distance c (palRead pal (search pal c)) ≤ distance c (palRead pal j) ∧
      (j.toNat < (search pal c).toNat → distance c (palRead pal (search pal c)) < distance c (palRead pal j))

/-- R134: for an opaque pixel the quantizer answers what the search would; index 0 exactly for the transparent; never
217, 240 or the padding, each of which duplicates a colour at a lower non-zero index; every other index for its own
colour; under `QFAST` = `always`, only 0 and the cube. -/
def Obligations.QuantizerProperties : Prop :=
  (∀ p : Pixel, 128 ≤ p.a.toNat →
    quantize .inputExact Config.palette p = search Config.palette (pixelColour p)) ∧
  (∀ p : Pixel, quantize .inputExact Config.palette p = 0#8 ↔ p.a.toNat < 128) ∧
  (∀ p : Pixel, (quantize .inputExact Config.palette p).toNat ≤ 239 ∧
    (quantize .inputExact Config.palette p).toNat ≠ 217) ∧
  (∀ i : BitVec 8, i.toNat = 217 ∨ 240 ≤ i.toNat →
    ∃ j : BitVec 8, 1 ≤ j.toNat ∧ j.toNat < i.toNat ∧ palRead Config.palette j = palRead Config.palette i) ∧
  (∀ (i a : BitVec 8), 128 ≤ a.toNat → 1 ≤ i.toNat → i.toNat ≤ 239 → i.toNat ≠ 217 →
    quantize .inputExact Config.palette
      ⟨(palRead Config.palette i).r, (palRead Config.palette i).g, (palRead Config.palette i).b, a⟩ = i) ∧
  (∀ p : Pixel, (quantize .always Config.palette p).toNat ≤ 216)

/-- R135: the fixed-point property fails for exactly the 18 indices 0, 217, 240 and 241 to 255, where black gives 1 and
white 216; under `QFAST` = `always` it fails for the inner ramp too. -/
def Obligations.QuantizerFixedPoints : Prop :=
  ∀ (i a : BitVec 8), 128 ≤ a.toNat →
    let own := fun q => quantize q Config.palette
      ⟨(palRead Config.palette i).r, (palRead Config.palette i).g, (palRead Config.palette i).b, a⟩
    (own .inputExact = i ↔ i.toNat ≠ 0 ∧ i.toNat ≠ 217 ∧ i.toNat < 240) ∧
    (i.toNat = 0 ∨ i.toNat = 217 ∨ 241 ≤ i.toNat → own .inputExact = 1#8) ∧
    (i.toNat = 240 → own .inputExact = 216#8) ∧
    (218 ≤ i.toNat → i.toNat ≤ 239 → own .always ≠ i)

/-! ### `LZW` -/

/-- R153: `LZW.START` completes while no encode is open: the encode is open, the dictionary has the literals alone, one
CLEAR has been emitted at 9 bits and one byte 0x00 output, one bit is pending; no other unit is touched. -/
def Obligations.StartOpensEncode : Prop :=
  ∀ s : State, s.lzw.phase = .idle →
    ∃ t, exec .lzwStart s = .next t ∧
      t.lzw = { phase := .active, dict := [], nextCode := 258#13, width := 9#4, pfx := none, acc := 1#19, nbits := 1#5,
                bcnt := 1#8, nsym := 0 } ∧
      t.codes = [(256#12, 9#4)] ∧ t.out = s.out ++ [0x000#10] ∧ t.rsp = s.rsp ++ [0x4000000000000000#64] ∧
      t.sym = s.sym ∧ t.vis = s.vis ∧ t.pal = s.pal ∧ t.inbox = s.inbox ∧ t.freeCtr = s.freeCtr

/-- R154, R184: the three commands out of phase are refused with status 2 and change nothing else; an open encode can
always be closed and a closed one opened. -/
def Obligations.PhaseRules : Prop :=
  ∀ s : State,
    (s.lzw.phase = .active →
      exec .lzwStart s = .next { s with rsp := s.rsp ++ [0x4020000000000000#64] } ∧
      (∃ t, exec .lzwFinish s = .next t ∧ t.lzw.phase = .idle) ∧
      (∀ k, ∃ t, exec (.lzwPut k) s = .next t ∧ t.lzw.phase = .active)) ∧
    (s.lzw.phase = .idle →
      (∀ k, exec (.lzwPut k) s = .next { s with rsp := s.rsp ++ [0x4120000000000000#64] }) ∧
      exec .lzwFinish s = .next { s with rsp := s.rsp ++ [0x4220000000000000#64] } ∧
      (∃ t, exec .lzwStart s = .next t ∧ t.lzw.phase = .active))

/-- R155, R15: `LZW.PUT` completes while an encode is open: the symbol cursor advances by one, the answer is empty, the
encode stays open, and no other unit is touched. -/
def Obligations.PutCountsSymbol : Prop :=
  ∀ (k : Symbol) (s : State), s.lzw.phase = .active →
    ∃ t, exec (.lzwPut k) s = .next t ∧ t.lzw.nsym = s.lzw.nsym + 1 ∧ t.lzw.phase = .active ∧ t.lzw.pfx ≠ none ∧
      t.rsp = s.rsp ++ [0x4100000000000000#64] ∧ t.sym = s.sym ∧ t.vis = s.vis ∧ t.pal = s.pal ∧ t.inbox = s.inbox ∧
      t.freeCtr = s.freeCtr

/-- R155: the first symbol of an encode, and a symbol that extends the prefix to a known string, only move the prefix:
nothing is emitted. -/
def Obligations.PutExtendsPrefix : Prop :=
  ∀ (k : Symbol) (s : State), s.lzw.phase = .active →
    (s.lzw.pfx = none →
      exec (.lzwPut k) s =
        .next { s with
          lzw := { s.lzw with nsym := s.lzw.nsym + 1, pfx := some (k.setWidth 12) }
          rsp := s.rsp ++ [0x4100000000000000#64] }) ∧
    (∀ (p : Code) (row : DictRow), s.lzw.pfx = some p → LzwWf s.lzw →
      row ∈ s.lzw.dict → row.pcode = p → row.sym = k →
        exec (.lzwPut k) s =
          .next { s with
            lzw := { s.lzw with nsym := s.lzw.nsym + 1, pfx := some row.code }
            rsp := s.rsp ++ [0x4100000000000000#64] })

/-- R155, R156, R157, R150: an unknown extension with a dictionary that is not full. The prefix code is emitted at the
active width, its bits above the pending ones; the width grows by one exactly when `NEXT` does not fit in it and it is
below 12; the extended string gets the code `NEXT`; the prefix restarts at the symbol. -/
def Obligations.PutInsertsString : Prop :=
  ∀ (k : Symbol) (p : Code) (s : State), s.lzw.phase = .active → LzwWf s.lzw → s.lzw.pfx = some p →
    (∀ row ∈ s.lzw.dict, ¬(row.pcode = p ∧ row.sym = k)) → s.lzw.nextCode.toNat < 4096 →
      ∃ (t : State) (beats : List Beat), exec (.lzwPut k) s = .next t ∧
        t.codes = s.codes ++ [(p, s.lzw.width)] ∧ t.out = s.out ++ beats ∧
        beats.length = (s.lzw.nbits.toNat + s.lzw.width.toNat) / 8 ∧
        carriesLowBits beats (s.lzw.acc.toNat + p.toNat * 2 ^ s.lzw.nbits.toNat) ∧
        (∀ b ∈ beats, beatLast b = false) ∧
        t.lzw.acc.toNat = (s.lzw.acc.toNat + p.toNat * 2 ^ s.lzw.nbits.toNat) / 256 ^ beats.length ∧
        t.lzw.nbits.toNat = (s.lzw.nbits.toNat + s.lzw.width.toNat) % 8 ∧
        t.lzw.width.toNat = (if 2 ^ s.lzw.width.toNat ≤ s.lzw.nextCode.toNat ∧ s.lzw.width.toNat < 12
          then s.lzw.width.toNat + 1 else s.lzw.width.toNat) ∧
        t.lzw.dict = s.lzw.dict ++ [⟨p, k, BitVec.ofNat 12 s.lzw.nextCode.toNat⟩] ∧
        t.lzw.nextCode.toNat = s.lzw.nextCode.toNat + 1 ∧ t.lzw.pfx = some (k.setWidth 12)

/-- R158, R148: an unknown extension with a full dictionary. The prefix code and then CLEAR are emitted, both at the
active width of 12 bits, no beat of theirs marked as the last; the dictionary and the width are reset; the extended string is not inserted; the prefix restarts
at the symbol of this very command. -/
def Obligations.PutResetsFullDictionary : Prop :=
  ∀ (k : Symbol) (p : Code) (s : State), s.lzw.phase = .active → LzwWf s.lzw → s.lzw.pfx = some p →
    (∀ row ∈ s.lzw.dict, ¬(row.pcode = p ∧ row.sym = k)) → s.lzw.nextCode.toNat = 4096 →
      ∃ (t : State) (beats : List Beat), exec (.lzwPut k) s = .next t ∧
        t.codes = s.codes ++ [(p, 12#4), (256#12, 12#4)] ∧ t.out = s.out ++ beats ∧
        beats.length = (s.lzw.nbits.toNat + 24) / 8 ∧
        carriesLowBits beats
          (s.lzw.acc.toNat + p.toNat * 2 ^ s.lzw.nbits.toNat + 256 * 2 ^ (s.lzw.nbits.toNat + 12)) ∧
        (∀ b ∈ beats, beatLast b = false) ∧
        t.lzw.acc.toNat =
          (s.lzw.acc.toNat + p.toNat * 2 ^ s.lzw.nbits.toNat + 256 * 2 ^ (s.lzw.nbits.toNat + 12)) / 256 ^ beats.length ∧
        t.lzw.nbits.toNat = s.lzw.nbits.toNat ∧
        t.lzw.dict = [] ∧ t.lzw.nextCode.toNat = 258 ∧ t.lzw.width.toNat = 9 ∧ t.lzw.pfx = some (k.setWidth 12) ∧
        t.lzw.nsym = s.lzw.nsym + 1

/-- R163: no symbol is lost or doubled. What the dictionary codes that `LZW.PUT` emits stand for in the dictionary they
were emitted from, followed by the new pending string, is the old pending string followed by the symbol. -/
def Obligations.PutConservesSymbols : Prop :=
  ∀ (k : Symbol) (s t : State), s.lzw.phase = .active → LzwWf s.lzw → exec (.lzwPut k) s = .next t →
    ∃ (old new : List Symbol) (emitted : List (Code × BitVec 4)),
      prefixString s.lzw = some old ∧ prefixString t.lzw = some new ∧ t.codes = s.codes ++ emitted ∧
      ((emitted = [] ∧ new = old ++ [k]) ∨
       (∃ (p : Code) (clear : List (Code × BitVec 4)), emitted = (p, s.lzw.width) :: clear ∧
         (clear = [] ∨ clear = [(256#12, 12#4)]) ∧ codeString s.lzw.dict p = some old ∧ new = [k]))

/-- R160, R56, R151: `LZW.FINISH` completes while an encode is open: the final prefix code, if there is one, and END are
emitted at the active width; every pending bit is output, the fill bits being zero; only the last byte is marked as the
last, and it closes its sub-block; the encode is closed and no other unit is touched. Of the other LZW elements, which
are unspecified afterwards, nothing is said. -/
def Obligations.FinishClosesEncode : Prop :=
  ∀ s : State, s.lzw.phase = .active → LzwWf s.lzw →
    ∃ (t : State) (beats : List Beat) (final : Beat), exec .lzwFinish s = .next t ∧
      t.lzw.phase = .idle ∧ t.rsp = s.rsp ++ [0x4200000000000000#64] ∧
      t.codes = s.codes ++ (match s.lzw.pfx with | none => [] | some p => [(p, s.lzw.width)])
        ++ [(257#12, s.lzw.width)] ∧
      t.out = s.out ++ beats ++ [final] ∧
      (let bits := s.lzw.nbits.toNat + (match s.lzw.pfx with | none => 0 | some _ => s.lzw.width.toNat)
       let total := s.lzw.acc.toNat + (match s.lzw.pfx with | none => 0 | some p => p.toNat * 2 ^ s.lzw.nbits.toNat)
         + 257 * 2 ^ bits
       beats.length + 1 = (bits + s.lzw.width.toNat + 7) / 8 ∧ carriesLowBits (beats ++ [final]) total) ∧
      beatLast final = true ∧ beatSbLast final = true ∧ (∀ b ∈ beats, beatLast b = false) ∧
      t.sym = s.sym ∧ t.vis = s.vis ∧ t.pal = s.pal ∧ t.inbox = s.inbox

/-- R166: how many beats each command of an encode outputs. -/
def Obligations.OutputVolume : Prop :=
  ∀ (s t : State), Inv s →
    (s.lzw.phase = .idle → exec .lzwStart s = .next t → t.out.length = s.out.length + 1) ∧
    (∀ k, s.lzw.phase = .active → exec (.lzwPut k) s = .next t → t.out.length ≤ s.out.length + 3) ∧
    (s.lzw.phase = .active → exec .lzwFinish s = .next t →
      s.out.length + 2 ≤ t.out.length ∧ t.out.length ≤ s.out.length + 4)

/-- R159: the two rules for the width of END give the same output unless `NEXT` is 512, 1024 or 2048 with a prefix
pending. -/
def Obligations.EndWidthRulesAgree : Prop :=
  ∀ s : State, LzwWf s.lzw →
    (s.lzw.pfx = none ∨
      (s.lzw.nextCode.toNat ≠ 512 ∧ s.lzw.nextCode.toNat ≠ 1024 ∧ s.lzw.nextCode.toNat ≠ 2048)) →
    finishOutput .emitTime s = finishOutput .insertTime s

/-- R161, R162: the encode of no symbol is CLEAR, END at 9 bits each, the bytes 00 03 02; the encode of one symbol is
CLEAR, the symbol, END at 9 bits each, four bytes; the last byte is marked. -/
def Obligations.ShortEncodes : Prop :=
  ∀ (k : Symbol) (s : State), s.lzw.phase = .idle →
    (∃ t, runInstrs [.lzwStart, .lzwFinish] s = some t ∧ t.codes = [(256#12, 9#4), (257#12, 9#4)] ∧
      t.out = s.out ++ [0x000#10, 0x003#10, 0x302#10]) ∧
    (∃ t, runInstrs [.lzwStart, .lzwPut k, .lzwFinish] s = some t ∧
      t.codes = [(256#12, 9#4), (k.setWidth 12, 9#4), (257#12, 9#4)] ∧
      ∃ b c : Beat, t.out = s.out ++ [0x000#10, b, c, 0x304#10] ∧
        beatData b = (1 + 2 * k.toNat) % 256 ∧ beatData c = k.toNat / 128 + 4 ∧
        beatSbLast b = false ∧ beatSbLast c = false)

/-- R163, R156: in an encode still open after any input sequence, the reference decoder reads every code emitted so far,
each at the width the decoder expects, and what it has produced, followed by the pending string, is the input. The
decoder is general knowledge and no part of the block (notes/assumptions/17.md, 93 G1). -/
def Obligations.DecoderFollowsCompressor : Prop :=
  ∀ (input : List Symbol) (s t : State), s.lzw.phase = .idle →
    runInstrs (.lzwStart :: input.map .lzwPut) s = some t →
      ∃ (d : DecoderState) (pending : List Symbol),
        decoderRun t.codes DecoderState.start = some d ∧ prefixString t.lzw = some pending ∧
        d.out ++ pending = input

/-- R164, R163, R160: the whole encode of any input sequence completes, and from its codes before END the reference
decoder, reading each at the width it expects, the final prefix code included, gives back the input. END itself is left
out: the decoder can expect it one bit wider (R165). The decoder is general knowledge and no part of the block
(notes/assumptions/17.md, 93 G1). -/
def Obligations.DecoderRecoversEncode : Prop :=
  ∀ (input : List Symbol) (s : State), s.lzw.phase = .idle →
    ∃ (t : State) (body : List (Code × BitVec 4)) (width : BitVec 4) (d : DecoderState),
      runInstrs (lzwEncode input) s = some t ∧ t.codes = body ++ [(257#12, width)] ∧
      decoderRun body DecoderState.start = some d ∧ d.out = input

/-- R55, R56, R160: the bytes of a whole encode are its codes, bit for bit in order, and fewer than 8 zero bits after
END; its last beat, and no other, is marked as the last, and it closes its sub-block. -/
def Obligations.EncodeBytesCarryCodes : Prop :=
  ∀ (input : List Symbol) (s : State), s.lzw.phase = .idle →
    ∃ (t : State) (beats : List Beat) (final : Beat) (fill : Nat),
      runInstrs (lzwEncode input) s = some t ∧ t.lzw.phase = .idle ∧ t.out = s.out ++ beats ++ [final] ∧ fill < 8 ∧
      beatBits (beats ++ [final]) = codeBits t.codes ++ List.replicate fill false ∧
      beatLast final = true ∧ beatSbLast final = true ∧ ∀ b ∈ beats, beatLast b = false
end

