-- ==== Sys2Proof/Laws/State.lean ====
section
/-! SUPPORT. Every field of State under every field update of Machine/Ops.lean, each true by `rfl`. -/

namespace Sys2Proof.Machine

@[simp] theorem State.setSym_sym (s : State) (v : SymRegs) : (s.setSym v).sym = v := rfl
@[simp] theorem State.setSym_vis (s : State) (v : SymRegs) : (s.setSym v).vis = s.vis := rfl
@[simp] theorem State.setSym_pal (s : State) (v : SymRegs) : (s.setSym v).pal = s.pal := rfl
@[simp] theorem State.setSym_lzw (s : State) (v : SymRegs) : (s.setSym v).lzw = s.lzw := rfl
@[simp] theorem State.setSym_rsp (s : State) (v : SymRegs) : (s.setSym v).rsp = s.rsp := rfl
@[simp] theorem State.setSym_out (s : State) (v : SymRegs) : (s.setSym v).out = s.out := rfl
@[simp] theorem State.setSym_codes (s : State) (v : SymRegs) : (s.setSym v).codes = s.codes := rfl
@[simp] theorem State.setSym_inbox (s : State) (v : SymRegs) : (s.setSym v).inbox = s.inbox := rfl
@[simp] theorem State.setSym_freeCtr (s : State) (v : SymRegs) : (s.setSym v).freeCtr = s.freeCtr := rfl

@[simp] theorem State.setVis_sym (s : State) (v : List Cell) : (s.setVis v).sym = s.sym := rfl
@[simp] theorem State.setVis_vis (s : State) (v : List Cell) : (s.setVis v).vis = v := rfl
@[simp] theorem State.setVis_pal (s : State) (v : List Cell) : (s.setVis v).pal = s.pal := rfl
@[simp] theorem State.setVis_lzw (s : State) (v : List Cell) : (s.setVis v).lzw = s.lzw := rfl
@[simp] theorem State.setVis_rsp (s : State) (v : List Cell) : (s.setVis v).rsp = s.rsp := rfl
@[simp] theorem State.setVis_out (s : State) (v : List Cell) : (s.setVis v).out = s.out := rfl
@[simp] theorem State.setVis_codes (s : State) (v : List Cell) : (s.setVis v).codes = s.codes := rfl
@[simp] theorem State.setVis_inbox (s : State) (v : List Cell) : (s.setVis v).inbox = s.inbox := rfl
@[simp] theorem State.setVis_freeCtr (s : State) (v : List Cell) : (s.setVis v).freeCtr = s.freeCtr := rfl

@[simp] theorem State.setLzw_sym (s : State) (v : LzwRegs) : (s.setLzw v).sym = s.sym := rfl
@[simp] theorem State.setLzw_vis (s : State) (v : LzwRegs) : (s.setLzw v).vis = s.vis := rfl
@[simp] theorem State.setLzw_pal (s : State) (v : LzwRegs) : (s.setLzw v).pal = s.pal := rfl
@[simp] theorem State.setLzw_lzw (s : State) (v : LzwRegs) : (s.setLzw v).lzw = v := rfl
@[simp] theorem State.setLzw_rsp (s : State) (v : LzwRegs) : (s.setLzw v).rsp = s.rsp := rfl
@[simp] theorem State.setLzw_out (s : State) (v : LzwRegs) : (s.setLzw v).out = s.out := rfl
@[simp] theorem State.setLzw_codes (s : State) (v : LzwRegs) : (s.setLzw v).codes = s.codes := rfl
@[simp] theorem State.setLzw_inbox (s : State) (v : LzwRegs) : (s.setLzw v).inbox = s.inbox := rfl
@[simp] theorem State.setLzw_freeCtr (s : State) (v : LzwRegs) : (s.setLzw v).freeCtr = s.freeCtr := rfl

@[simp] theorem State.pushRsp_sym (s : State) (v : List ResponseWord) : (s.pushRsp v).sym = s.sym := rfl
@[simp] theorem State.pushRsp_vis (s : State) (v : List ResponseWord) : (s.pushRsp v).vis = s.vis := rfl
@[simp] theorem State.pushRsp_pal (s : State) (v : List ResponseWord) : (s.pushRsp v).pal = s.pal := rfl
@[simp] theorem State.pushRsp_lzw (s : State) (v : List ResponseWord) : (s.pushRsp v).lzw = s.lzw := rfl
@[simp] theorem State.pushRsp_rsp (s : State) (v : List ResponseWord) : (s.pushRsp v).rsp = s.rsp ++ v := rfl
@[simp] theorem State.pushRsp_out (s : State) (v : List ResponseWord) : (s.pushRsp v).out = s.out := rfl
@[simp] theorem State.pushRsp_codes (s : State) (v : List ResponseWord) : (s.pushRsp v).codes = s.codes := rfl
@[simp] theorem State.pushRsp_inbox (s : State) (v : List ResponseWord) : (s.pushRsp v).inbox = s.inbox := rfl
@[simp] theorem State.pushRsp_freeCtr (s : State) (v : List ResponseWord) : (s.pushRsp v).freeCtr = s.freeCtr := rfl

@[simp] theorem State.pushOut_sym (s : State) (v : Beat) : (s.pushOut v).sym = s.sym := rfl
@[simp] theorem State.pushOut_vis (s : State) (v : Beat) : (s.pushOut v).vis = s.vis := rfl
@[simp] theorem State.pushOut_pal (s : State) (v : Beat) : (s.pushOut v).pal = s.pal := rfl
@[simp] theorem State.pushOut_lzw (s : State) (v : Beat) : (s.pushOut v).lzw = s.lzw := rfl
@[simp] theorem State.pushOut_rsp (s : State) (v : Beat) : (s.pushOut v).rsp = s.rsp := rfl
@[simp] theorem State.pushOut_out (s : State) (v : Beat) : (s.pushOut v).out = s.out ++ [v] := rfl
@[simp] theorem State.pushOut_codes (s : State) (v : Beat) : (s.pushOut v).codes = s.codes := rfl
@[simp] theorem State.pushOut_inbox (s : State) (v : Beat) : (s.pushOut v).inbox = s.inbox := rfl
@[simp] theorem State.pushOut_freeCtr (s : State) (v : Beat) : (s.pushOut v).freeCtr = s.freeCtr := rfl

@[simp] theorem State.setCodes_sym (s : State) (v : List (Code × BitVec 4)) : (s.setCodes v).sym = s.sym := rfl
@[simp] theorem State.setCodes_vis (s : State) (v : List (Code × BitVec 4)) : (s.setCodes v).vis = s.vis := rfl
@[simp] theorem State.setCodes_pal (s : State) (v : List (Code × BitVec 4)) : (s.setCodes v).pal = s.pal := rfl
@[simp] theorem State.setCodes_lzw (s : State) (v : List (Code × BitVec 4)) : (s.setCodes v).lzw = s.lzw := rfl
@[simp] theorem State.setCodes_rsp (s : State) (v : List (Code × BitVec 4)) : (s.setCodes v).rsp = s.rsp := rfl
@[simp] theorem State.setCodes_out (s : State) (v : List (Code × BitVec 4)) : (s.setCodes v).out = s.out := rfl
@[simp] theorem State.setCodes_codes (s : State) (v : List (Code × BitVec 4)) : (s.setCodes v).codes = v := rfl
@[simp] theorem State.setCodes_inbox (s : State) (v : List (Code × BitVec 4)) : (s.setCodes v).inbox = s.inbox := rfl
@[simp] theorem State.setCodes_freeCtr (s : State) (v : List (Code × BitVec 4)) : (s.setCodes v).freeCtr = s.freeCtr := rfl

@[simp] theorem State.setInbox_sym (s : State) (v : List HostEvent) : (s.setInbox v).sym = s.sym := rfl
@[simp] theorem State.setInbox_vis (s : State) (v : List HostEvent) : (s.setInbox v).vis = s.vis := rfl
@[simp] theorem State.setInbox_pal (s : State) (v : List HostEvent) : (s.setInbox v).pal = s.pal := rfl
@[simp] theorem State.setInbox_lzw (s : State) (v : List HostEvent) : (s.setInbox v).lzw = s.lzw := rfl
@[simp] theorem State.setInbox_rsp (s : State) (v : List HostEvent) : (s.setInbox v).rsp = s.rsp := rfl
@[simp] theorem State.setInbox_out (s : State) (v : List HostEvent) : (s.setInbox v).out = s.out := rfl
@[simp] theorem State.setInbox_codes (s : State) (v : List HostEvent) : (s.setInbox v).codes = s.codes := rfl
@[simp] theorem State.setInbox_inbox (s : State) (v : List HostEvent) : (s.setInbox v).inbox = v := rfl
@[simp] theorem State.setInbox_freeCtr (s : State) (v : List HostEvent) : (s.setInbox v).freeCtr = s.freeCtr := rfl

@[simp] theorem State.setFreeCtr_sym (s : State) (v : Nat) : (s.setFreeCtr v).sym = s.sym := rfl
@[simp] theorem State.setFreeCtr_vis (s : State) (v : Nat) : (s.setFreeCtr v).vis = s.vis := rfl
@[simp] theorem State.setFreeCtr_pal (s : State) (v : Nat) : (s.setFreeCtr v).pal = s.pal := rfl
@[simp] theorem State.setFreeCtr_lzw (s : State) (v : Nat) : (s.setFreeCtr v).lzw = s.lzw := rfl
@[simp] theorem State.setFreeCtr_rsp (s : State) (v : Nat) : (s.setFreeCtr v).rsp = s.rsp := rfl
@[simp] theorem State.setFreeCtr_out (s : State) (v : Nat) : (s.setFreeCtr v).out = s.out := rfl
@[simp] theorem State.setFreeCtr_codes (s : State) (v : Nat) : (s.setFreeCtr v).codes = s.codes := rfl
@[simp] theorem State.setFreeCtr_inbox (s : State) (v : Nat) : (s.setFreeCtr v).inbox = s.inbox := rfl
@[simp] theorem State.setFreeCtr_freeCtr (s : State) (v : Nat) : (s.setFreeCtr v).freeCtr = v := rfl

end Sys2Proof.Machine
end

