-- ==== Sys2Proof/Laws/Ops.lean ====
section
/-! SUPPORT. One lemma per shared operation: everything it does, said once. -/

namespace Sys2Proof.Machine

/-! ### How a command ends -/

theorem respond_eq (op : BitVec 8) (st : Status) (payload : BitVec 48) (s : State) :
    respond op st payload s = { s with rsp := s.rsp ++ [resultWord op st payload] } := rfl

theorem refuse_eq (op : BitVec 8) (st : Status) (s : State) :
    refuse op st s = { s with rsp := s.rsp ++ [resultWord op st 0#48] } := rfl

theorem respondPoints_eq (ps : List Point) (s : State) :
    respondPoints ps s = { s with rsp := s.rsp ++ ps.zipIdx.map fun pj => pointWord pj.2 ps.length pj.1 } := rfl

@[simp] theorem respondPoints_nil (s : State) : respondPoints [] s = s := by
  simp [respondPoints_eq]

/-! ### The environment -/

theorem presentWord_eq (cw : CommandWord) (s : State) :
    presentWord cw s = { s with inbox := .command cw :: s.inbox } := rfl

theorem hostReset_eq (s : State) :
    hostReset s = { State.reset with pal := s.pal, inbox := s.inbox, freeCtr := s.freeCtr } := rfl

/-! ### The palette ROM -/

theorem palRead_palette (i : BitVec 8) : palRead Config.palette i = Config.paletteEntry i.toNat := by
  simp [palRead, Config.palette]

/-! ### The visited bitmap -/

@[simp] theorem visHas_iff (vis : List Cell) (c : Cell) : visHas vis c = true ↔ c ∈ vis := by
  simp [visHas]

/-- Setting a bit adds its cell and no other. -/
@[simp] theorem mem_visInsert (c d : Cell) (vis : List Cell) : d ∈ visInsert c vis ↔ d = c ∨ d ∈ vis := by
  induction vis with
  | nil => simp [visInsert]
  | cons v vs ih =>
    simp only [visInsert]
    split
    · simp
    · split
      · next h => subst h; simp
      · simp only [List.mem_cons, ih]; tauto

/-- Setting a bit keeps the list strictly rising. -/
theorem visInsert_sorted (c : Cell) {vis : List Cell} (h : vis.Pairwise (· < ·)) :
    (visInsert c vis).Pairwise (· < ·) := by
  induction vis with
  | nil => simp [visInsert]
  | cons v vs ih =>
    obtain ⟨hv, hs⟩ := List.pairwise_cons.mp h
    simp only [visInsert]
    split
    · next hc =>
      refine List.pairwise_cons.mpr ⟨fun d hd => ?_, h⟩
      rcases List.mem_cons.mp hd with rfl | hd
      · exact hc
      · exact BitVec.lt_trans hc (hv d hd)
    · split
      · exact h
      · next hlt hne =>
        refine List.pairwise_cons.mpr ⟨fun d hd => ?_, ih hs⟩
        rcases (mem_visInsert c d vs).mp hd with rfl | hd
        · have h1 := BitVec.not_lt.mp hlt
          bv_omega
        · exact hv d hd

/-- Setting a bit that is set changes nothing. -/
theorem visInsert_of_mem {c : Cell} {vis : List Cell} (hs : vis.Pairwise (· < ·)) (h : c ∈ vis) :
    visInsert c vis = vis := by
  induction vis with
  | nil => simp at h
  | cons v vs ih =>
    obtain ⟨hv, hs'⟩ := List.pairwise_cons.mp hs
    simp only [visInsert]
    split
    · next hc =>
      rcases List.mem_cons.mp h with rfl | h
      · exact absurd hc (BitVec.lt_irrefl _)
      · exact absurd (BitVec.lt_trans hc (hv c h)) (BitVec.lt_irrefl _)
    · split
      · rfl
      · next hne =>
        rcases List.mem_cons.mp h with rfl | h
        · exact absurd rfl hne
        · rw [ih hs' h]

theorem visTestAndSet_eq (cx cy : BitVec 8) (s : State) :
    visTestAndSet cx cy s =
      (visHas s.vis (cellNumber cx cy), { s with vis := visInsert (cellNumber cx cy) s.vis }) := rfl

theorem visClear_eq (s : State) : visClear s = { s with vis := [] } := rfl

/-- The number of a cell's bit is `y·256 + x` (R20). -/
theorem cellNumber_toNat (cx cy : BitVec 8) : (cellNumber cx cy).toNat = cy.toNat * 256 + cx.toNat := by
  have hx := cx.isLt
  have h := Nat.shiftLeft_add_eq_or_of_lt (b := cx.toNat) (i := 8) (by omega) cy.toNat
  simp only [cellNumber, BitVec.toNat_append]
  rw [← h, Nat.shiftLeft_eq]

/-! ### The dictionary -/

/-- What `DictFind` answers is the code of a row with that prefix code and symbol. -/
theorem dictFind_some {dict : List DictRow} {p c : Code} {k : Symbol} (h : dictFind dict p k = some c) :
    ⟨p, k, c⟩ ∈ dict := by
  simp only [dictFind, Option.map_eq_some_iff] at h
  obtain ⟨row, hrow, rfl⟩ := h
  have hp := List.find?_some hrow
  have hm := List.mem_of_find?_eq_some hrow
  simp only [Bool.and_eq_true, beq_iff_eq] at hp
  obtain ⟨rfl, rfl⟩ := hp
  exact hm

/-- `DictFind` answers nothing exactly when no row has that prefix code and symbol. -/
theorem dictFind_none {dict : List DictRow} {p : Code} {k : Symbol} :
    dictFind dict p k = none ↔ ∀ row ∈ dict, ¬(row.pcode = p ∧ row.sym = k) := by
  simp [dictFind, List.find?_eq_none]

@[simp] theorem dictFind_dictInit (p : Code) (k : Symbol) : dictFind dictInit p k = none := rfl

/-- After an insertion the new key is found with its code, and every other key as before. -/
theorem dictFind_dictInsert (dict : List DictRow) (p q c : Code) (k l : Symbol) :
    dictFind (dictInsert dict p k c) q l =
      (dictFind dict q l).or (if p = q ∧ k = l then some c else none) := by
  simp only [dictFind, dictInsert, List.find?_append, List.find?_singleton]
  cases hfind : dict.find? (fun row => row.pcode == q && row.sym == l) with
  | some row => simp
  | none => by_cases h : p = q ∧ k = l <;> simp_all

@[simp] theorem dictCode?_singleton (dict : List DictRow) (k : Symbol) :
    dictCode? dict [k] = some (literalCode k) := rfl

/-- The code of an extended string is the table's entry at the string's code (R52). -/
theorem dictCodeFrom?_append (dict : List DictRow) (p : Code) (str ext : List Symbol) :
    dictCodeFrom? dict p (str ++ ext) = (dictCodeFrom? dict p str).bind fun c => dictCodeFrom? dict c ext := by
  induction str generalizing p with
  | nil => rfl
  | cons k ks ih => simp only [List.cons_append, dictCodeFrom?, Option.bind_assoc, ih]

theorem dictCode?_snoc (dict : List DictRow) {str : List Symbol} (hne : str ≠ []) (k : Symbol) :
    dictCode? dict (str ++ [k]) = (dictCode? dict str).bind fun c => dictFind dict c k := by
  cases str with
  | nil => exact absurd rfl hne
  | cons x xs =>
    simp only [List.cons_append, dictCode?, dictCodeFrom?_append]
    congr
    funext c
    simp [dictCodeFrom?]

/-! ### The byte port -/

theorem outbyte_eq (b : BitVec 8) (fin : Bool) (s : State) :
    outbyte b fin s =
      { s with
        out := s.out ++ [beat b (subBlockEnds (s.lzw.bcnt.toNat + 1) fin) fin]
        lzw := { s.lzw with
          bcnt := if subBlockEnds (s.lzw.bcnt.toNat + 1) fin then 0 else BitVec.ofNat 8 (s.lzw.bcnt.toNat + 1) } } := rfl

@[simp] theorem beat_data (b : BitVec 8) (sb fin : Bool) : (beat b sb fin).toNat % 256 = b.toNat := by
  have h : (beat b sb fin).setWidth 8 = b := by
    simp only [beat]
    rw [BitVec.setWidth_append]
    simp
  simpa using congrArg BitVec.toNat h

@[simp] theorem beat_last (b : BitVec 8) (sb fin : Bool) : (beat b sb fin)[9] = fin := by
  revert b sb fin
  decide +kernel

@[simp] theorem beat_sbLast (b : BitVec 8) (sb fin : Bool) : (beat b sb fin)[8] = sb := by
  revert b sb fin
  decide +kernel

/-- A byte output leaves the open sub-block short of 255 bytes. -/
theorem outbyte_bcnt_le (b : BitVec 8) (fin : Bool) {s : State} (h : s.lzw.bcnt.toNat ≤ 254) :
    (outbyte b fin s).lzw.bcnt.toNat ≤ 254 := by
  rw [outbyte_eq]
  by_cases hsb : subBlockEnds (s.lzw.bcnt.toNat + 1) fin = true
  · simp [hsb]
  · have hne : s.lzw.bcnt.toNat + 1 ≠ 255 := by
      simp only [subBlockEnds, Config.subblockMax, Bool.or_eq_true, beq_iff_eq, not_or] at hsb
      exact hsb.1
    simp only [hsb, Bool.false_eq_true, if_false, BitVec.toNat_ofNat]
    omega

/-- All that the loop of `emit` can change: `n` beats with the low bytes of the accumulator, none marked last unless the
code closes the stream, and the accumulator's rest. -/
theorem drain_spec (closing : Bool) (n acc nbits : Nat) (s : State) :
    ∃ (beats : List Beat) (bcnt : BitVec 8),
      beats.length = n ∧
      beats.map (fun b => b.toNat % 256) = (List.range n).map (fun j => acc / 256 ^ j % 256) ∧
      (closing = false → ∀ b ∈ beats, b.getLsbD 9 = false) ∧
      (s.lzw.bcnt.toNat ≤ 254 → bcnt.toNat ≤ 254) ∧
      drain closing n acc nbits s =
        { s with
          out := s.out ++ beats
          lzw := { s.lzw with
            acc := BitVec.ofNat 19 (acc / 256 ^ n), nbits := BitVec.ofNat 5 (nbits - 8 * n), bcnt := bcnt } } := by
  induction n generalizing acc nbits s with
  | zero => exact ⟨[], s.lzw.bcnt, rfl, rfl, by simp, id, by simp [drain, State.setLzw]⟩
  | succ n ih =>
    obtain ⟨beats, bcnt, hlen, hdata, hlast, hbc, heq⟩ :=
      ih (acc / 256) (nbits - 8) (outbyte (BitVec.ofNat 8 acc) (closing && nbits - 8 == 0) s)
    have hdiv : acc / 256 / 256 ^ n = acc / 256 ^ (n + 1) := by rw [Nat.div_div_eq_div_mul, ← Nat.pow_succ']
    have hsub : nbits - 8 - 8 * n = nbits - 8 * (n + 1) := by omega
    refine ⟨beat (BitVec.ofNat 8 acc) (subBlockEnds (s.lzw.bcnt.toNat + 1) (closing && nbits - 8 == 0))
      (closing && nbits - 8 == 0) :: beats, bcnt, by simp [hlen], ?_, ?_, ?_, ?_⟩
    · rw [List.map_cons, hdata, List.range_succ_eq_map, List.map_cons, List.map_map]
      refine congrArg₂ _ (by simp) (List.map_congr_left fun j _ => ?_)
      simp only [Function.comp_apply, Nat.div_div_eq_div_mul, ← Nat.pow_succ', Nat.succ_eq_add_one]
    · intro hc b hb
      rcases List.mem_cons.mp hb with rfl | hb
      · simp [hc]
      · exact hlast hc b hb
    · exact fun h => hbc (outbyte_bcnt_le _ _ h)
    · rw [outbyte_eq] at heq
      rw [drain, outbyte_eq, heq]
      simp [hdiv, hsub]

/-- Several bytes output in order, each with its end-of-stream marker. -/
def outbytes (l : List (BitVec 8 × Bool)) (s : State) : State := l.foldl (fun s bf => outbyte bf.1 bf.2 s) s

/-- The bytes of `n` turns of the loop of `emit`, oldest first: only the last can carry the end-of-stream marker. -/
def drainBytes (closing : Bool) (n acc nbits : Nat) : List (BitVec 8 × Bool) :=
  (List.range n).map fun j => (BitVec.ofNat 8 (acc / 256 ^ j), closing && nbits - 8 * (j + 1) == 0)

theorem outbytes_lzw (l : List (BitVec 8 × Bool)) (s : State) :
    (outbytes l s).lzw = { s.lzw with bcnt := (outbytes l s).lzw.bcnt } := by
  induction l generalizing s with
  | nil => rfl
  | cons b bs ih =>
    have h := ih (outbyte b.1 b.2 s)
    simp only [outbytes, List.foldl_cons] at h ⊢
    rw [h]
    rfl

/-- The loop of `emit` outputs the oldest bits byte by byte and stores what is left (R150). -/
theorem drain_eq_outbytes (closing : Bool) (n acc nbits : Nat) (s : State) :
    drain closing n acc nbits s =
      let t := outbytes (drainBytes closing n acc nbits) s
      t.setLzw { t.lzw with acc := BitVec.ofNat 19 (acc / 256 ^ n), nbits := BitVec.ofNat 5 (nbits - 8 * n) } := by
  induction n generalizing acc nbits s with
  | zero => simp [drain, outbytes, drainBytes]
  | succ n ih =>
    have hbytes : drainBytes closing (n + 1) acc nbits =
        (BitVec.ofNat 8 acc, closing && nbits - 8 == 0) :: drainBytes closing n (acc / 256) (nbits - 8) := by
      simp only [drainBytes, List.range_succ_eq_map, List.map_cons, List.map_map, pow_zero, Nat.div_one]
      refine congrArg₂ _ rfl (List.map_congr_left fun j _ => ?_)
      simp only [Function.comp_apply, Nat.div_div_eq_div_mul, ← Nat.pow_succ', Nat.succ_eq_add_one]
      congr 3
      omega
    have hdiv : acc / 256 / 256 ^ n = acc / 256 ^ (n + 1) := by rw [Nat.div_div_eq_div_mul, ← Nat.pow_succ']
    have hsub : nbits - 8 - 8 * n = nbits - 8 * (n + 1) := by omega
    rw [drain, ih, hbytes, hdiv, hsub]
    rfl

/-- All that `emit` can change (R150): the pair recorded, whole bytes output, the rest kept in the accumulator. -/
theorem emit_spec (code : Code) (closing : Bool) (s : State) :
    let total := s.lzw.acc.toNat + code.toNat * 2 ^ s.lzw.nbits.toNat
    let bits := s.lzw.nbits.toNat + s.lzw.width.toNat
    ∃ (beats : List Beat) (bcnt : BitVec 8),
      beats.length = bits / 8 ∧
      beats.map (fun b => b.toNat % 256) = (List.range (bits / 8)).map (fun j => total / 256 ^ j % 256) ∧
      (closing = false → ∀ b ∈ beats, b.getLsbD 9 = false) ∧
      (s.lzw.bcnt.toNat ≤ 254 → bcnt.toNat ≤ 254) ∧
      emit code closing s =
        { s with
          out := s.out ++ beats
          codes := s.codes ++ [(code, s.lzw.width)]
          lzw := { s.lzw with
            acc := BitVec.ofNat 19 (total / 256 ^ (bits / 8)), nbits := BitVec.ofNat 5 (bits % 8), bcnt := bcnt } } := by
  intro total bits
  obtain ⟨beats, bcnt, hlen, hdata, hlast, hbc, heq⟩ :=
    drain_spec closing (bits / 8) total bits (s.setCodes (s.codes ++ [(code, s.lzw.width)]))
  have hmod : bits - 8 * (bits / 8) = bits % 8 := by omega
  refine ⟨beats, bcnt, hlen, hdata, hlast, hbc, ?_⟩
  rw [hmod] at heq
  exact heq

/-! ### Dictionary generations and code width -/

theorem lzwReset_eq (s : State) :
    lzwReset s = { s with lzw := { s.lzw with dict := [], nextCode := 258#13, width := 9#4 } } := rfl

theorem lzwInsert_eq (p : Code) (k : Symbol) (s : State) :
    lzwInsert p k s =
      { s with
        lzw := { s.lzw with
          width := widen s.lzw.nextCode s.lzw.width
          dict := s.lzw.dict ++ [⟨p, k, s.lzw.nextCode.setWidth 12⟩]
          nextCode := s.lzw.nextCode + 1 } } := rfl

theorem setPfx_eq (p : Option Code) (s : State) : setPfx p s = { s with lzw := { s.lzw with pfx := p } } := rfl

/-- The width rule keeps a legal width legal and never lowers it. -/
theorem widen_spec (nextCode : BitVec 13) {width : BitVec 4} (h : width.toNat ≤ 12) :
    (widen nextCode width).toNat =
      if 2 ^ width.toNat ≤ nextCode.toNat ∧ width.toNat < 12 then width.toNat + 1 else width.toNat := by
  unfold widen Config.widthMax
  split
  · rw [BitVec.toNat_add]; simp; omega
  · rfl

theorem unspecifiedLzw_phase (n : Nat) : (unspecifiedLzw n).phase = .idle := rfl

end Sys2Proof.Machine
end

