-- ==== Sys2Proof/Laws/PerInstr.lean ====
section
/-! SUPPORT. The per-instruction family `EncodeSelects`: every command's encoded word selects the row of its own opcode
(R67), one lemma per constructor. -/

namespace Sys2Proof.Laws.EncodeSelects

/-- The encoded word matches the pattern of the command's own row under that row's mask. -/
def Statement (i : Instr) : Prop := encode i &&& i.opcode.mask = i.opcode.pattern

/-- Under a mask that keeps every bit of the opcode byte, only the operand bits are left to compare. -/
theorem masked_operands (op : Opcode) (v m : BitVec 56) :
    (op.byte ++ v) &&& (0xFF#8 ++ m) = op.byte ++ (v &&& m) := by
  rw [BitVec.and_append]
  exact congrArg (· ++ (v &&& m)) (BitVec.and_allOnes (x := op.byte))

theorem symSetdim (wreq : BitVec 16) (hreq : BitVec 16) : Statement (.symSetdim wreq hreq) := by
  have hm : Opcode.symSetdim.mask = 0xFF#8 ++ ((0xFFFFFF#24 ++ 0#16) ++ 0#16) := by decide
  rw [Statement, Instr.opcode, hm, encode, Instr.opcode, masked_operands, operandBits, BitVec.and_append, BitVec.and_append,
    BitVec.and_zero, BitVec.and_zero]
  rfl

theorem symSetmode (m : BitVec 3) : Statement (.symSetmode m) := by
  have hm : Opcode.symSetmode.mask = 0xFF#8 ++ (0x1FFFFFFFFFFFFF#53 ++ 0#3) := by decide
  rw [Statement, Instr.opcode, hm, encode, Instr.opcode, masked_operands, operandBits, BitVec.and_append,
    BitVec.and_zero]
  rfl

theorem symMap (x : BitVec 16) (y : BitVec 16) : Statement (.symMap x y) := by
  have hm : Opcode.symMap.mask = 0xFF#8 ++ ((0xFFFFFF#24 ++ 0#16) ++ 0#16) := by decide
  rw [Statement, Instr.opcode, hm, encode, Instr.opcode, masked_operands, operandBits, BitVec.and_append, BitVec.and_append,
    BitVec.and_zero, BitVec.and_zero]
  rfl

theorem bldVclr : Statement .bldVclr := rfl

theorem bldLighten (cx : BitVec 8) (cy : BitVec 8) (pix : BitVec 32) : Statement (.bldLighten cx cy pix) := by
  have hm : Opcode.bldLighten.mask = 0xFF#8 ++ (((0xFF#8 ++ 0#8) ++ 0#8) ++ 0#32) := by decide
  rw [Statement, Instr.opcode, hm, encode, Instr.opcode, masked_operands, operandBits, BitVec.and_append, BitVec.and_append, BitVec.and_append,
    BitVec.and_zero, BitVec.and_zero, BitVec.and_zero]
  rfl

theorem bldDarken (cx : BitVec 8) (cy : BitVec 8) (pix : BitVec 32) : Statement (.bldDarken cx cy pix) := by
  have hm : Opcode.bldDarken.mask = 0xFF#8 ++ (((0xFF#8 ++ 0#8) ++ 0#8) ++ 0#32) := by decide
  rw [Statement, Instr.opcode, hm, encode, Instr.opcode, masked_operands, operandBits, BitVec.and_append, BitVec.and_append, BitVec.and_append,
    BitVec.and_zero, BitVec.and_zero, BitVec.and_zero]
  rfl

theorem qntQuant (pix : BitVec 32) : Statement (.qntQuant pix) := by
  have hm : Opcode.qntQuant.mask = 0xFF#8 ++ (0xFFFFFF#24 ++ 0#32) := by decide
  rw [Statement, Instr.opcode, hm, encode, Instr.opcode, masked_operands, operandBits, BitVec.and_append,
    BitVec.and_zero]
  rfl

theorem qntPalrd (idx : BitVec 8) : Statement (.qntPalrd idx) := by
  have hm : Opcode.qntPalrd.mask = 0xFF#8 ++ (0xFFFFFFFFFFFF#48 ++ 0#8) := by decide
  rw [Statement, Instr.opcode, hm, encode, Instr.opcode, masked_operands, operandBits, BitVec.and_append,
    BitVec.and_zero]
  rfl

theorem lzwStart : Statement .lzwStart := rfl

theorem lzwPut (sym : BitVec 8) : Statement (.lzwPut sym) := by
  have hm : Opcode.lzwPut.mask = 0xFF#8 ++ (0xFFFFFFFFFFFF#48 ++ 0#8) := by decide
  rw [Statement, Instr.opcode, hm, encode, Instr.opcode, masked_operands, operandBits, BitVec.and_append,
    BitVec.and_zero]
  rfl

theorem lzwFinish : Statement .lzwFinish := rfl

end Sys2Proof.Laws.EncodeSelects
end

