-- ==== Sys2Proof/Tests/Slice0.lean ====
section
/-! SUPPORT. Tests: words written out from the encodings, one-step vectors of 95_test_vectors.md, ill-formed terms, and
for every statement with hypotheses a state and operands that meet them. -/

namespace Sys2Proof.Tests

open Sys2Proof.Machine

-- The kernel evaluates these tests one after another: each waiting test would otherwise hold a thread with a stack of its
-- own, and so many of them at once exceed the memory a check may use.
set_option Elab.async false

/-! ### Helpers -/

/-- The next state of an outcome, if it is one. -/
def nextOf (o : Host.Outcome State Fault Refusal) : Option State :=
  match o with
  | .next t => some t
  | .fault _ => none
  | .refused _ => none

/-- One step on the word `w` from `s`. -/
def after (s : State) (w : Nat) : Option State := nextOf (step (s.withFetchWord 64 w))

/-- The reset state with other extents and mode. -/
def symState (w h : BitVec 9) (mode : MirrorMode) : State := State.reset.setSym { w := w, h := h, mode := mode }

/-- The state after LZW.START, LZW.PUT 1, LZW.PUT 1 (R155's example), without its answers. -/
def openState : State :=
  { State.reset with
    lzw := { phase := .active, dict := [⟨1, 1, 258⟩], nextCode := 259, width := 9, pfx := some 1, acc := 0, nbits := 2,
             bcnt := 2, nsym := 2 }
    out := [0x000, 0x003]
    codes := [(256, 9), (1, 9)] }

/-- The state after LZW.START, LZW.PUT k. -/
def oneSymbolState (k : Symbol) : State :=
  { State.reset with
    lzw := { phase := .active, dict := [], nextCode := 258, width := 9, pfx := some (k.setWidth 12), acc := 1,
             nbits := 1, bcnt := 1, nsym := 1 }
    out := [0x000]
    codes := [(256, 9)] }

/-- A dictionary of `n` rows, each a literal followed by a symbol. -/
def rows (n : Nat) : List DictRow :=
  (List.range n).map fun i => ⟨BitVec.ofNat 12 (i / 256), BitVec.ofNat 8 i, BitVec.ofNat 12 (258 + i)⟩

/-- LZW elements of an open encode with `n` rows and the literal 200 pending. -/
def rowsLzw (n : Nat) : LzwRegs :=
  { phase := .active, dict := rows n, nextCode := BitVec.ofNat 13 (258 + n),
    width := BitVec.ofNat 4 (widthFor (258 + n)), pfx := some 200, acc := 5, nbits := 3, bcnt := 254, nsym := 0 }

/-! ### Words written out from the encodings (R62 to R64; 95 V-SYM-6, V-BLD-2, V-QNT-5, V-LZW-14, programs P1 to P5) -/

theorem test_decode_setdim : decode 0x100000000101FFFB#64 = .ok (.symSetdim 0xFFFB#16 257#16) := by decide +kernel
theorem test_decode_setmode : decode 0x1100000000000003#64 = .ok (.symSetmode 3#3) := by decide +kernel
theorem test_decode_map : decode 0x1200000000020005#64 = .ok (.symMap 5#16 2#16) := by decide +kernel
theorem test_decode_vclr : decode 0x2000000000000000#64 = .ok .bldVclr := by decide +kernel
theorem test_decode_lighten : decode 0x21000001F0101080#64 = .ok (.bldLighten 1#8 0#8 0xF0101080#32) := by decide +kernel
theorem test_decode_darken : decode 0x22000201FF282880#64 = .ok (.bldDarken 1#8 2#8 0xFF282880#32) := by decide +kernel
theorem test_decode_quant : decode 0x30000000FE0000FF#64 = .ok (.qntQuant 0xFE0000FF#32) := by decide +kernel
theorem test_decode_palrd : decode 0x31000000000000D8#64 = .ok (.qntPalrd 216#8) := by decide +kernel
theorem test_decode_start : decode 0x4000000000000000#64 = .ok .lzwStart := by decide +kernel
theorem test_decode_put : decode 0x41000000000000B5#64 = .ok (.lzwPut 181#8) := by decide +kernel
theorem test_decode_finish : decode 0x4200000000000000#64 = .ok .lzwFinish := by decide +kernel
theorem test_decode_reserved_opcode : decode 0xFFFFFFFFFFFFFFFF#64 = .error .reservedOpcode := by decide +kernel
theorem test_decode_reserved_bits : decode 0x4180000000000009#64 = .error .reservedBits := by decide +kernel
theorem test_decode_setmode_bit3 : decode 0x1100000000000008#64 = .error .reservedBits := by decide +kernel
theorem test_table_word : decodeTableWord 64 0x1200000000020005 = some (.symMap 5#16 2#16) := by decide +kernel

/-! ### Ill-formed terms -/

theorem test_wf_refuses_mode_seven : (Instr.symSetmode 7#3).wellFormed = false := by decide
theorem test_wf_takes_mode_six : (Instr.symSetmode 6#3).wellFormed = true := by decide

/-! ### One-step vectors (95_test_vectors.md) -/

/-- V-SYM-6. -/
theorem test_setdim_clamps :
    ((after State.reset 0x100000000101FFFB).map fun t => (t.sym.w, t.sym.h, t.rsp)) =
      some (1#9, 256#9, [0x1000000001000001#64]) := by decide +kernel

/-- V-SYM-6. -/
theorem test_setmode_seven :
    ((after (symState 4 3 .central) 0x1100000000000007).map fun t => (t.sym.mode, t.rsp)) =
      some (.central, [0x1110000000000000#64]) := by decide +kernel

/-- V-SYM-6, 4x3, both. -/
theorem test_map_both :
    ((after (symState 4 3 .both) 0x1200000000020003).map State.rsp) =
      some [0x1200000000000004#64, 0x1201000000000203#64, 0x1201000000010200#64, 0x1201000000020003#64,
        0x12010000000B0000#64] := by decide +kernel

/-- V-SYM-6, 4x8, diagonal, an origin outside with its image inside. -/
theorem test_map_outside :
    ((after (symState 4 8 .diagonal) 0x1200000000020005).map State.rsp) =
      some [0x1200000000000001#64, 0x1201000000080502#64] := by decide +kernel

/-- V-BLD-2. -/
theorem test_lighten_clamps :
    ((after State.reset 0x21000001F0101080).map fun t => (t.vis, t.rsp)) =
      some ([1#16], [0x21000001FF282880#64]) := by decide +kernel

/-- V-BLD-2, a transparent cell is marked. -/
theorem test_lighten_transparent :
    ((after State.reset 0x2100000100000000).map fun t => (t.vis, t.rsp)) =
      some ([1#16], [0x2100000400000000#64]) := by decide +kernel

/-- V-BLD-2, an already visited cell. -/
theorem test_darken_visited :
    ((after (State.reset.setVis [1#16]) 0x22000001FF282880).map fun t => (t.vis, t.rsp)) =
      some ([1#16], [0x22000002FF282880#64]) := by decide +kernel

/-- V-BLD-1, 23 clamps to 0 and 24 reaches it. -/
theorem test_darken_clamps :
    ((after State.reset 0x2200000017180001).map State.rsp) = some [0x2200000100000001#64] := by decide +kernel

/-- V-BLD-2, a reserved bit: the set is not cleared. -/
theorem test_vclr_reserved :
    ((after (State.reset.setVis [7#16]) 0x2000000000000001).map fun t => (t.vis, t.rsp)) =
      some ([7#16], [0x2010000000000000#64]) := by decide +kernel

/-- V-BLD-3. -/
theorem test_vclr_clears :
    ((after (State.reset.setVis [7#16]) 0x2000000000000000).map fun t => (t.vis, t.rsp)) =
      some ([], [0x2000000000000000#64]) := by decide +kernel

/-- R138: (128,128,128) is 229, by search. -/
theorem test_quant_search : quantize .inputExact Config.palette ⟨128, 128, 128, 255⟩ = 229#8 := by decide +kernel

/-- V-QNT-4: a tie goes to the lower index. -/
theorem test_quant_tie : quantize .inputExact Config.palette ⟨48, 51, 60, 255⟩ = 44#8 := by decide +kernel

/-- V-QNT-5. -/
theorem test_palrd_ramp :
    ((after State.reset 0x31000000000000DA).map State.rsp) = some [0x31000000000B0B0B#64] := by decide +kernel

/-- Program P3, step 2. -/
theorem test_start :
    ((after State.reset 0x4000000000000000).map fun t => (t.lzw.acc, t.lzw.nbits, t.lzw.bcnt, t.out)) =
      some (1#19, 1#5, 1#8, [0#10]) := by decide +kernel

/-- R155's example: the second LZW.PUT 1. -/
theorem test_put_unknown :
    ((after (oneSymbolState 1) 0x4100000000000001).map fun t => (t.lzw.dict, t.lzw.nextCode, t.lzw.acc, t.lzw.nbits, t.out)) =
      some ([⟨1, 1, 258⟩], 259#13, 0#19, 2#5, [0#10, 3#10]) := by decide +kernel

/-- V-LZW-4: the code just inserted is matched by the next symbol. -/
theorem test_put_known :
    ((after openState 0x4100000000000001).map fun t => (t.lzw.pfx, t.out, t.lzw.nsym)) =
      some (some 258#12, [0#10, 3#10], 3) := by decide +kernel

/-- Program P3, step 4: 03 04 04, the last byte marked. -/
theorem test_finish :
    ((after (oneSymbolState 1) 0x4200000000000000).map fun t => (t.lzw.phase, t.out, t.codes)) =
      some (.idle, [0#10, 3#10, 4#10, 0x304#10], [(256#12, 9#4), (1#12, 9#4), (257#12, 9#4)]) := by decide +kernel

/-- V-LZW-14: LZW.PUT while IDLE. -/
theorem test_put_idle : ((after State.reset 0x4100000000000005).map State.rsp) = some [0x4120000000000000#64] := by
  decide +kernel

/-- R200, R202: reset abandons the encode and empties the streams; the next command stays presented. -/
theorem test_reset_event :
    ((nextOf (step (openState.setInbox [.reset, .command 0x4000000000000000#64]))).map
      fun t => (t.lzw.phase, t.out, t.inbox)) = some (.idle, [], [.command 0x4000000000000000#64]) := by decide +kernel

/-- Program P4: the last byte beats as they are written there. -/
theorem test_beat_text : beatText 0x02B#10 = ['2', 'b'] ∧ beatText 0x320#10 = ['2', '0', '|', '|'] := by decide +kernel

/-- R10: opaque red as it is written there, printed and read. -/
theorem test_pixel_text :
    pixelText 0xFF0000FF#32 = ['#', 'F', 'F', '0', '0', '0', '0', 'F', 'F'] ∧
      pixelField? ['#', 'F', 'F', '0', '0', '0', '0', 'F', 'F'] = some 0xFF0000FF#32 := by decide +kernel

/-- Log entry 16, the model's choice: a `-` before a hexadecimal number. -/
theorem test_negative_hex : signedField? ['-', '0', 'x', '1', '0'] = some (BitVec.ofInt 16 (-16)) := by decide +kernel

/-- R83: the written form of a command, read and printed. -/
theorem test_asm_round :
    readLine? ['S', 'Y', 'M', '.', 'M', 'A', 'P', ' ', '-', '1', ',', ' ', '0'] = some [.symMap 0xFFFF#16 0#16] ∧
      commandText (.symMap 0xFFFF#16 0#16) = ['S', 'Y', 'M', '.', 'M', 'A', 'P', ' ', '-', '1', ',', ' ', '0'] := by
  decide +kernel

/-! ### States that meet the hypotheses of the statements -/

theorem rows_succ (n : Nat) :
    rows (n + 1) = rows n ++ [⟨BitVec.ofNat 12 (n / 256), BitVec.ofNat 8 n, BitVec.ofNat 12 (258 + n)⟩] := by
  simp [rows, List.range_succ]

/-- Any number of rows up to a full dictionary makes a well-formed open encode. -/
theorem rowsLzw_wf {n : Nat} (hn : n ≤ 3838) : LzwWf (rowsLzw n) where
  next_range := by simp only [rowsLzw, BitVec.toNat_ofNat]; omega
  codes_exact := by
    have h : (rowsLzw n).nextCode.toNat - 258 = n := by simp only [rowsLzw, BitVec.toNat_ofNat]; omega
    rw [h]
    refine List.ext_getElem (by simp [rowsLzw, rows]) fun i h1 h2 => ?_
    simp only [rowsLzw, rows, List.length_map, List.length_range] at h1
    simp only [rowsLzw, rows, List.getElem_map, List.getElem_range, List.getElem_range', BitVec.toNat_ofNat]
    omega
  rows_closed := by
    intro row hrow
    simp only [rowsLzw, rows, List.mem_map, List.mem_range] at hrow
    obtain ⟨i, hi, rfl⟩ := hrow
    left
    simp only [BitVec.toNat_ofNat]
    omega
  keys_distinct := by
    simp only [rowsLzw, rows, List.map_map]
    refine List.Nodup.map_on (fun i hi j hj h => ?_) List.nodup_range
    simp only [Function.comp_apply, Prod.mk.injEq, ← BitVec.toNat_inj, BitVec.toNat_ofNat] at h
    simp only [List.mem_range] at hi hj
    omega
  width_least := by
    have h : (rowsLzw n).nextCode.toNat = 258 + n := by simp only [rowsLzw, BitVec.toNat_ofNat]; omega
    rw [h]
    simp only [rowsLzw, BitVec.toNat_ofNat]
    refine Nat.mod_eq_of_lt ?_
    unfold widthFor
    split_ifs <;> omega
  prefix_key := by
    intro p hp
    simp only [rowsLzw, Option.some.injEq] at hp
    subst hp
    left
    decide
  pending_bits := by show (3#5).toNat ≤ 7; decide
  acc_bound := by show (5#19).toNat < 2 ^ (3#5).toNat; decide
  bcnt_bound := by show (254#8).toNat ≤ 254; decide

/-- No row continues the literal 200. -/
theorem rows_unknown {n : Nat} (hn : n ≤ 3838) (k : Symbol) :
    ∀ row ∈ (rowsLzw n).dict, ¬(row.pcode = 200#12 ∧ row.sym = k) := by
  intro row hrow ⟨hp, _⟩
  simp only [rowsLzw, rows, List.mem_map, List.mem_range] at hrow
  obtain ⟨i, hi, rfl⟩ := hrow
  simp only [← BitVec.toNat_inj, BitVec.toNat_ofNat] at hp
  omega

/-- Hypotheses of PutInsertsString at both ends and at both sides of a width step; of PutResetsFullDictionary. -/
theorem witness_put_insert (n : Nat) (hn : n = 0 ∨ n = 253 ∨ n = 254 ∨ n = 3837) :
    (rowsLzw n).phase = .active ∧ LzwWf (rowsLzw n) ∧ (rowsLzw n).pfx = some 200#12 ∧
      (∀ row ∈ (rowsLzw n).dict, ¬(row.pcode = 200#12 ∧ row.sym = 9#8)) ∧ (rowsLzw n).nextCode.toNat < 4096 := by
  refine ⟨rfl, rowsLzw_wf (by omega), rfl, rows_unknown (by omega) _, ?_⟩
  simp only [rowsLzw, BitVec.toNat_ofNat]
  omega

theorem witness_put_full :
    (rowsLzw 3838).phase = .active ∧ LzwWf (rowsLzw 3838) ∧ (rowsLzw 3838).pfx = some 200#12 ∧
      (∀ row ∈ (rowsLzw 3838).dict, ¬(row.pcode = 200#12 ∧ row.sym = 9#8)) ∧
      (rowsLzw 3838).nextCode.toNat = 4096 := by
  refine ⟨rfl, rowsLzw_wf (by omega), rfl, rows_unknown (by omega) _, rfl⟩

/-- The state after two symbols is a well-formed open encode (PutExtendsPrefix, PutConservesSymbols,
FinishClosesEncode, EndWidthRulesAgree). -/
theorem witness_open_encode : openState.lzw.phase = .active ∧ LzwWf openState.lzw := by
  refine ⟨rfl, ⟨by decide, by decide, ?_, by decide, by decide, ?_, by decide, by decide, by decide⟩⟩
  · intro row hrow
    have h : row = ⟨1, 1, 258⟩ := by simpa [openState] using hrow
    subst h
    left
    decide
  · intro p hp
    have h : 1#12 = p := by simpa [openState] using hp
    subst h
    left
    decide

/-- Hypotheses of PutExtendsPrefix: a known extension, and the empty prefix. -/
theorem witness_put_known :
    openState.lzw.pfx = some 1#12 ∧ (⟨1, 1, 258⟩ : DictRow) ∈ openState.lzw.dict ∧
      (openState.setLzw { openState.lzw with pfx := none }).lzw.phase = .active := by decide

/-- EndWidthRulesAgree: a prefix is pending and `NEXT` is 511 or 513, the values next to 512. -/
theorem witness_end_width (n : Nat) (hn : n = 253 ∨ n = 255) :
    LzwWf (rowsLzw n) ∧ (rowsLzw n).nextCode.toNat ≠ 512 ∧ (rowsLzw n).nextCode.toNat ≠ 1024 ∧
      (rowsLzw n).nextCode.toNat ≠ 2048 := by
  refine ⟨rowsLzw_wf (by omega), ?_⟩
  simp only [rowsLzw, BitVec.toNat_ofNat]
  omega

/-- A state with an open encode that has every invariant, and a step from it (StepKeepsInvariant, StepKeepsCodesPacked,
StepKeepsSubBlocks, OutputVolume, PaletteNeverChanges). -/
theorem witness_invariants :
    Inv openState ∧ Packed openState ∧ SubBlocksCut openState ∧
      (after openState 0x4100000000000002).isSome = true := by
  refine ⟨⟨by unfold ExtentsWf; decide, by decide, rfl, fun _ => witness_open_encode.2⟩, fun _ => ?_, ?_, by decide +kernel⟩
  · exact ⟨[], [0x000, 0x003], rfl, by decide +kernel⟩
  · unfold SubBlocksCut; decide +kernel

/-- OutputVolume and StartOpensEncode, PhaseRules, ShortEncodes, DecoderFollowsCompressor, DecoderRecoversEncode,
EncodeBytesCarryCodes: an idle state that is not the reset state. -/
theorem witness_idle :
    (openState.setLzw LzwRegs.reset).lzw.phase = .idle ∧ Inv (openState.setLzw LzwRegs.reset) ∧
      (runInstrs (.lzwStart :: [1#8, 1#8].map .lzwPut) (openState.setLzw LzwRegs.reset)).isSome = true := by
  refine ⟨rfl, ⟨by unfold ExtentsWf; decide, by decide, rfl, fun h => by cases h⟩, by decide +kernel⟩

/-- StepRunsDecoded, FetchWordRunsNext, EncodeOfDecode, OneResultWord, RefusalCauses, StreamsOnlyGrow,
CommandsKeepOtherUnits: a presented word that decodes, and its next state with a result word and point words. -/
theorem witness_decoded :
    let s := (symState 4 3 .both).setInbox [.command 0x1200000000020003#64]
    s.inbox = .command 0x1200000000020003#64 :: [] ∧
      decode 0x1200000000020003#64 = .ok (.symMap 3#16 2#16) ∧
      decodeTableWord 64 0x1200000000020003 = some (.symMap 3#16 2#16) ∧
      ((nextOf (runWord 0x1200000000020003#64 s)).map fun t => t.rsp) =
        some (s.rsp ++ 0x1200000000000004#64 ::
          [0x1201000000000203#64, 0x1201000000010200#64, 0x1201000000020003#64, 0x12010000000B0000#64]) := by
  decide +kernel

/-- UndecodableWordRefused, for each reason. -/
theorem witness_undecodable :
    (State.reset.setInbox [.command 0#64]).inbox = .command 0#64 :: [] ∧ decode 0#64 = .error .reservedOpcode ∧
      decode 0x1200000100000000#64 = .error .reservedBits := by decide +kernel

/-- ResetEvent. -/
theorem witness_reset_event : (openState.setInbox [.reset, .reset]).inbox = .reset :: [.reset] := by decide

/-- RefusalCauses: each of the six causes has a word and a state. -/
theorem witness_refusals :
    ((after State.reset 0x0000000000000000).map fun t => t.rsp.map rwStatus) = some [1#4] ∧
    ((after State.reset 0x3100000000000100).map fun t => t.rsp.map rwStatus) = some [1#4] ∧
    ((after State.reset 0x1100000000000007).map fun t => t.rsp.map rwStatus) = some [1#4] ∧
    ((after openState 0x4000000000000000).map fun t => t.rsp.map rwStatus) = some [2#4] ∧
    ((after State.reset 0x41000000000000FF).map fun t => t.rsp.map rwStatus) = some [2#4] ∧
    ((after State.reset 0x4200000000000000).map fun t => t.rsp.map rwStatus) = some [2#4] := by decide +kernel

/-- ResultsDependOnOwnUnit: two states that share the LZW state and differ elsewhere, for a command of `LZW`; and two that
share the palette, for a command of `QNT`. -/
theorem witness_own_unit :
    let s := openState
    let s' := openState.setVis [3#16]
    s.lzw = s'.lzw ∧ s.freeCtr = s'.freeCtr ∧ s.codes = s'.codes ∧ s.pal = s'.pal ∧ s.vis ≠ s'.vis ∧
      (nextOf (exec (.lzwPut 2#8) s)).isSome = true ∧ (nextOf (exec (.lzwPut 2#8) s')).isSome = true ∧
      (nextOf (exec (.qntPalrd 2#8) s)).isSome = true ∧ (nextOf (exec (.qntPalrd 2#8) s')).isSome = true := by
  decide +kernel

/-- SetmodeSetsMode: the last mode code, and the reserved one. -/
theorem witness_modes : (6#3 : BitVec 3) ≠ 7#3 ∧ modeOfCode? 6#3 = some .antidiagonal ∧ modeOfCode? 7#3 = none := by
  decide

/-- MapAnswersMirror: the smallest and the largest canvas. -/
theorem witness_extents : ExtentsWf (symState 1 1 .none).sym ∧ ExtentsWf (symState 256 256 .both).sym := by
  unfold ExtentsWf
  decide

/-- MirrorOriginFirst, MirrorInsideCanvas, MirrorCounts, ReflectionsAreInvolutions: an origin in the corner of the
canvas, and one outside it (V-SYM-1, V-SYM-2). -/
theorem witness_mirror :
    inCanvas 4 3 ⟨3, 2⟩ = true ∧ (⟨0, 2⟩ : Point) ∈ mirror 4 3 .horizontal ⟨3, 2⟩ ∧ inCanvas 4 3 ⟨4, 1⟩ = false ∧
      mirror 4 3 .antidiagonal ⟨0, 3⟩ = [⟨0, 2⟩] := by decide +kernel

/-- MirrorDeduplicates (V-SYM-3): the centre of a 5x5 canvas, a centre column alone, and the antidiagonal. -/
theorem witness_dedup :
    mirror 5 5 .both ⟨2, 2⟩ = [⟨2, 2⟩] ∧ mirror 5 5 .both ⟨2, 0⟩ = [⟨2, 0⟩, ⟨2, 4⟩] ∧
      mirror 5 5 .both ⟨0, 2⟩ = [⟨0, 2⟩, ⟨4, 2⟩] ∧ mirror 5 5 .antidiagonal ⟨0, 4⟩ = [⟨0, 4⟩] := by decide +kernel

/-- OncePerStroke: a first command, commands between, and the state they reach. -/
theorem witness_once_per_stroke :
    ((nextOf (exec (.bldLighten 2#8 2#8 0x10101010#32) State.reset)).bind
      (runInstrs [.bldDarken 2#8 3#8 0x10101010#32, .symSetmode 1#3])).isSome = true ∧
      Instr.bldVclr ∉ [Instr.bldDarken 2#8 3#8 0x10101010#32, Instr.symSetmode 1#3] := by decide +kernel

/-- AlphaThreshold, QuantizerProperties, QuantizerFixedPoints, SearchIsNearestLowest: the alphas and indices next to the
bounds. -/
theorem witness_quant :
    (127#8).toNat < 128 ∧ 128 ≤ (128#8).toNat ∧ 1 ≤ (239#8).toNat ∧ (239#8).toNat ≤ 239 ∧ (239#8).toNat ≠ 217 ∧
      241 ≤ (241#8).toNat := by decide

end Sys2Proof.Tests
end

section
/-! SUPPORT. The rows of the opcode table (R63, R67): a row fixes the whole opcode byte, and the eleven bytes differ.
From this follow that decoding is selecting a row and that no word selects two. -/

namespace Sys2Proof

/-- The list of rows leaves no opcode out (R63). -/
theorem Opcode.mem_all (op : Opcode) : op ∈ Opcode.all := by
  cases op <;> decide

/-- The opcode bytes of the map (R63) name their own opcodes. -/
@[simp] theorem Opcode.ofByte?_byte (op : Opcode) : Opcode.ofByte? op.byte = some op := by
  cases op <;> rfl

/-- The opcode bytes of the rows differ (R67). -/
theorem Opcode.byte_injective : Function.Injective Opcode.byte := fun op op' h => by
  have hsome : some op = some op' := by rw [← op.ofByte?_byte, h, op'.ofByte?_byte]
  exact Option.some.inj hsome

theorem Opcode.ofByte?_eq_some_iff {b : BitVec 8} {op : Opcode} : Opcode.ofByte? b = some op ↔ op.byte = b := by
  constructor
  · intro h
    exact eq_of_beq (List.find?_some (p := fun row : Opcode => row.byte == b) h)
  · rintro rfl
    exact op.ofByte?_byte

theorem Opcode.selects_iff {op : Opcode} {cw : CommandWord} : op.selects cw = true ↔ cw &&& op.mask = op.pattern :=
  beq_iff_eq

@[simp] theorem opByte_pattern (op : Opcode) : opByte op.pattern = op.byte := by
  cases op <;> rfl

/-- Every bit of the opcode byte is compared: `OP` holds no operand bit (R62, R67). -/
@[simp] theorem opByte_mask (op : Opcode) : opByte op.mask = BitVec.allOnes 8 := by
  cases op <;> rfl

theorem opByte_and (v w : CommandWord) : opByte (v &&& w) = opByte v &&& opByte w :=
  BitVec.extractLsb'_and

/-- A word that selects a row carries the row's opcode byte. -/
theorem opByte_of_selects {op : Opcode} {cw : CommandWord} (h : cw &&& op.mask = op.pattern) : opByte cw = op.byte :=
  calc opByte cw = opByte cw &&& opByte op.mask := by rw [opByte_mask, BitVec.and_allOnes]
    _ = opByte op.pattern := by rw [← opByte_and, h]
    _ = op.byte := opByte_pattern op

/-- A word that selects two rows would carry both their opcode bytes (R67). -/
theorem Opcode.eq_of_selects {op op' : Opcode} {cw : CommandWord} (h : cw &&& op.mask = op.pattern)
    (h' : cw &&& op'.mask = op'.pattern) : op = op' :=
  Opcode.byte_injective ((opByte_of_selects h).symm.trans (opByte_of_selects h'))

@[simp] theorem Opcode.assemble_opcode (op : Opcode) (cw : CommandWord) : (op.assemble cw).opcode = op := by
  cases op <;> rfl

/-- What the decoder can answer (R65): the operands of the row the word selects. -/
theorem decode_eq_ok_iff {cw : CommandWord} {i : Instr} :
    decode cw = .ok i ↔ ∃ op : Opcode, cw &&& op.mask = op.pattern ∧ op.assemble cw = i := by
  constructor
  · intro h
    unfold decode at h
    split at h
    · cases h
    next op _ =>
      split at h
      next hsel => exact ⟨op, Opcode.selects_iff.mp hsel, Except.ok.inj h⟩
      · cases h
  · rintro ⟨op, hsel, rfl⟩
    have hop : Opcode.ofByte? (opByte cw) = some op := Opcode.ofByte?_eq_some_iff.mpr (opByte_of_selects hsel).symm
    simp [decode, hop, Opcode.selects_iff.mpr hsel]

/-- A word selects a row exactly when it decodes to a command of that row (R65, R67). -/
theorem selects_iff_decode (op : Opcode) (cw : CommandWord) :
    cw &&& op.mask = op.pattern ↔ ∃ i, decode cw = .ok i ∧ i.opcode = op := by
  constructor
  · intro hsel
    exact ⟨op.assemble cw, decode_eq_ok_iff.mpr ⟨op, hsel, rfl⟩, op.assemble_opcode cw⟩
  · rintro ⟨i, hdec, rfl⟩
    obtain ⟨op, hsel, rfl⟩ := decode_eq_ok_iff.mp hdec
    rwa [op.assemble_opcode cw]

/-- Settles O3: the values are the table's; the rest holds because every row compares the whole opcode byte. -/
theorem rowsSelectCommands : Obligations.RowsSelectCommands :=
  ⟨rfl, Opcode.mem_all, selects_iff_decode, fun _ _ _ => Opcode.eq_of_selects⟩

end Sys2Proof
end

section
/-! SUPPORT. The points of `mirror` (R97 to R104): what removing duplicates keeps, which images stay in the canvas, and
`mirror` for an origin inside and outside the canvas. -/

namespace Sys2Proof.Machine

/-! ### Removing duplicates (R99) -/

@[simp] theorem dedupFirst_nil : dedupFirst [] = [] := rfl

theorem dedupFirst_cons (p : Point) (ps : List Point) :
    dedupFirst (p :: ps) = p :: (dedupFirst ps).filter fun q => q != p := rfl

@[simp] theorem mem_dedupFirst {q : Point} {ps : List Point} : q ∈ dedupFirst ps ↔ q ∈ ps := by
  induction ps with
  | nil => simp
  | cons p ps ih =>
    by_cases hq : q = p
    · simp [dedupFirst_cons, hq]
    · simp [dedupFirst_cons, hq, ih]

theorem length_dedupFirst_le (ps : List Point) : (dedupFirst ps).length ≤ ps.length := by
  induction ps with
  | nil => simp
  | cons p ps ih =>
    have hfilter := List.length_filter_le (fun q => q != p) (dedupFirst ps)
    rw [dedupFirst_cons, List.length_cons, List.length_cons]
    omega

/-- A point repeated at once is dropped (R99). -/
@[simp] theorem dedupFirst_cons_cons_self (p : Point) (ps : List Point) :
    dedupFirst (p :: p :: ps) = dedupFirst (p :: ps) := by
  simp [dedupFirst_cons]

@[simp] theorem dedupFirst_singleton (p : Point) : dedupFirst [p] = [p] := rfl

/-! ### The canvas and the images (R97, R98) -/

theorem inCanvas_iff {w h : Int} {p : Point} :
    inCanvas w h p = true ↔ 0 ≤ p.x ∧ p.x < w ∧ 0 ≤ p.y ∧ p.y < h :=
  decide_eq_true_iff

/-- Reflecting the column at the centre of the canvas does not change whether a point is inside. -/
@[simp] theorem inCanvas_reflect_x (w h x y : Int) : inCanvas w h ⟨w - 1 - x, y⟩ = inCanvas w h ⟨x, y⟩ := by
  rw [Bool.eq_iff_iff, inCanvas_iff, inCanvas_iff]
  dsimp only
  omega

/-- Reflecting the row at the centre of the canvas does not change whether a point is inside. -/
@[simp] theorem inCanvas_reflect_y (w h x y : Int) : inCanvas w h ⟨x, h - 1 - y⟩ = inCanvas w h ⟨x, y⟩ := by
  rw [Bool.eq_iff_iff, inCanvas_iff, inCanvas_iff]
  dsimp only
  omega

/-- The modes whose images reflect a column or a row at the centre of the canvas: all but the two diagonals. -/
def KeepsCanvas (mode : MirrorMode) : Prop :=
  mode = .none ∨ mode = .horizontal ∨ mode = .vertical ∨ mode = .both ∨ mode = .central

/-- Away from the diagonals the canvas holds all candidates or none (R97, R98). -/
theorem inCanvas_of_mem_candidates (w h : Int) {mode : MirrorMode} (p : Point) (hmode : KeepsCanvas mode) :
    ∀ q ∈ candidates w h mode p, inCanvas w h q = inCanvas w h p := by
  rcases hmode with rfl | rfl | rfl | rfl | rfl <;> simp [candidates]

/-- The candidate sequence begins with the origin (R97). -/
theorem candidates_eq_cons_tail (w h : Int) (mode : MirrorMode) (p : Point) :
    candidates w h mode p = p :: (candidates w h mode p).tail := by
  cases mode <;> rfl

/-- The diagonals have one image beside the origin (R97). -/
theorem keepsCanvas_or_length_tail (mode : MirrorMode) :
    KeepsCanvas mode ∨ ∀ (w h : Int) (p : Point), (candidates w h mode p).tail.length = 1 := by
  cases mode
  case diagonal | antidiagonal => exact .inr fun _ _ _ => rfl
  all_goals exact .inl (by simp [KeepsCanvas])

/-! ### The points of `mirror` -/

theorem mem_mirror {w h : Int} {mode : MirrorMode} {p q : Point} :
    q ∈ mirror w h mode p ↔ q ∈ candidates w h mode p ∧ inCanvas w h q = true := by
  rw [mirror, mem_dedupFirst, List.mem_filter]

theorem length_mirror_le (w h : Int) (mode : MirrorMode) (p : Point) :
    (mirror w h mode p).length ≤ (candidates w h mode p).length :=
  (length_dedupFirst_le _).trans (List.length_filter_le _ _)

/-- An origin inside the canvas is kept, and kept first (R100). -/
theorem mirror_of_inside {w h : Int} {p : Point} (mode : MirrorMode) (hp : inCanvas w h p = true) :
    ∃ ps, mirror w h mode p = p :: ps := by
  rw [mirror, candidates_eq_cons_tail, List.filter_cons_of_pos hp, dedupFirst_cons]
  exact ⟨_, rfl⟩

/-- An origin outside the canvas leaves only the images. -/
theorem mirror_of_outside {w h : Int} {p : Point} (mode : MirrorMode) (hp : inCanvas w h p = false) :
    mirror w h mode p = dedupFirst ((candidates w h mode p).tail.filter (inCanvas w h)) := by
  rw [mirror, candidates_eq_cons_tail, List.filter_cons_of_neg (by simp [hp]), List.tail_cons]

/-- With every candidate inside the canvas only duplicates are dropped. -/
theorem mirror_eq_dedupFirst {w h : Int} {mode : MirrorMode} {p : Point}
    (hin : ∀ q ∈ candidates w h mode p, inCanvas w h q = true) :
    mirror w h mode p = dedupFirst (candidates w h mode p) := by
  rw [mirror, List.filter_eq_self.mpr hin]

theorem mirror_eq_dedupFirst_of_keepsCanvas {w h : Int} {mode : MirrorMode} {p : Point} (hmode : KeepsCanvas mode)
    (hp : inCanvas w h p = true) : mirror w h mode p = dedupFirst (candidates w h mode p) :=
  mirror_eq_dedupFirst fun q hq => (inCanvas_of_mem_candidates w h p hmode q hq).trans hp

/-- Outside the canvas the modes that keep it give no point (R102). -/
theorem mirror_eq_nil_of_outside {w h : Int} {mode : MirrorMode} {p : Point} (hmode : KeepsCanvas mode)
    (hp : inCanvas w h p = false) : mirror w h mode p = [] := by
  refine List.eq_nil_iff_forall_not_mem.mpr fun q hq => ?_
  obtain ⟨hcand, hin⟩ := mem_mirror.mp hq
  rw [inCanvas_of_mem_candidates w h p hmode q hcand, hp] at hin
  cases hin

/-- Outside the canvas at most one point is left: the one image of a diagonal (R102). -/
theorem length_mirror_of_outside {w h : Int} {p : Point} (mode : MirrorMode) (hp : inCanvas w h p = false) :
    (mirror w h mode p).length ≤ 1 := by
  rcases keepsCanvas_or_length_tail mode with hmode | htail
  · simp [mirror_eq_nil_of_outside hmode hp]
  · rw [mirror_of_outside mode hp, ← htail w h p]
    exact (length_dedupFirst_le _).trans (List.length_filter_le _ _)

/-- An image equal to the origin is no second point (R104). -/
theorem mirror_of_fixed {w h : Int} {mode : MirrorMode} {p : Point} (hp : inCanvas w h p = true)
    (hfixed : candidates w h mode p = [p, p]) : mirror w h mode p = [p] := by
  rw [mirror_eq_dedupFirst (by simp [hfixed, hp]), hfixed, dedupFirst_cons_cons_self, dedupFirst_singleton]

/-! ### The statements -/

/-- Settles O27. -/
theorem mirrorOriginFirst : Obligations.MirrorOriginFirst := by
  intro w h x y mode hx hxw hy hyh
  have hp : inCanvas w h ⟨x, y⟩ = true := inCanvas_iff.mpr ⟨hx, hxw, hy, hyh⟩
  obtain ⟨ps, hps⟩ := mirror_of_inside mode hp
  rw [hps, List.head?_cons]

/-- Settles O28. -/
theorem mirrorInsideCanvas : Obligations.MirrorInsideCanvas := by
  intro w h mode p q hq
  have hin := inCanvas_iff.mp (mem_mirror.mp hq).2
  exact ⟨hin, fun _ _ => by omega⟩

/-- Settles O29: the bound is the length of the candidate sequence; an origin inside is kept, one outside is not. -/
theorem mirrorCounts : Obligations.MirrorCounts := by
  refine ⟨fun w h mode p => ⟨?_, fun hp => ?_, fun hp hmode => mirror_eq_nil_of_outside hmode hp, fun hp =>
    ⟨length_mirror_of_outside mode hp, fun hmem => ?_⟩⟩, by decide⟩
  · refine (length_mirror_le w h mode p).trans ?_
    cases mode <;> exact le_rfl
  · obtain ⟨ps, hps⟩ := mirror_of_inside mode hp
    simp [hps]
  · rw [(mem_mirror.mp hmem).2] at hp
    cases hp

/-- The images of horizontal, vertical and central are involutions, inside the canvas and outside it (R103). -/
theorem candidates_involutive (w h : Int) {mode : MirrorMode} (p : Point)
    (hmode : mode = .horizontal ∨ mode = .vertical ∨ mode = .central) :
    ∃ q, candidates w h mode p = [p, q] ∧ candidates w h mode q = [q, p] := by
  rcases hmode with rfl | rfl | rfl <;> exact ⟨_, rfl, by simp [candidates]⟩

/-- Settles O30: on a canvas of 4 columns and 8 rows both diagonals take (2, 5) outside. -/
theorem reflectionsAreInvolutions : Obligations.ReflectionsAreInvolutions := by
  refine ⟨fun w h mode p hmode hp => ?_, 4, 8, ⟨2, 5⟩, ⟨5, 2⟩, ⟨-2, 5⟩, by decide⟩
  obtain ⟨q, hpq, hqp⟩ := candidates_involutive w h p hmode
  have hkeeps : KeepsCanvas mode := by
    rcases hmode with rfl | rfl | rfl <;> simp [KeepsCanvas]
  have hq : inCanvas w h q = inCanvas w h p := inCanvas_of_mem_candidates w h p hkeeps q (by simp [hpq])
  exact ⟨q, hpq, hq.trans hp, hqp⟩

/-- Settles O31: at a centre line or on a diagonal an image is the origin; for `both`, a centre line makes the four
candidates two pairs of equal points. -/
theorem mirrorDeduplicates : Obligations.MirrorDeduplicates := by
  intro w h x y hx hxw hy hyh
  have hp : inCanvas w h ⟨x, y⟩ = true := inCanvas_iff.mpr ⟨hx, hxw, hy, hyh⟩
  have hboth : mirror w h .both ⟨x, y⟩ = dedupFirst (candidates w h .both ⟨x, y⟩) :=
    mirror_eq_dedupFirst_of_keepsCanvas (by simp [KeepsCanvas]) hp
  have hcol : 2 * x = w - 1 → w - 1 - x = x := by omega
  have hrow : 2 * y = h - 1 → h - 1 - y = y := by omega
  have hanti (ha : w - 1 - y = x) (hb : h - 1 - x = y) : mirror w h .antidiagonal ⟨x, y⟩ = [⟨x, y⟩] :=
    mirror_of_fixed hp (by simp [candidates, ha, hb])
  refine ⟨fun hc => ?_, fun hr => ?_, fun hc hr => ?_, fun hxy => ?_, hanti, fun hsum hwh =>
    hanti (by omega) (by omega), fun hc hr => ?_, fun hr hc => ?_, fun hc hr => ?_⟩
  · exact mirror_of_fixed hp (by simp [candidates, hcol hc])
  · exact mirror_of_fixed hp (by simp [candidates, hrow hr])
  · exact mirror_of_fixed hp (by simp [candidates, hcol hc, hrow hr])
  · exact mirror_of_fixed hp (by simp [candidates, hxy])
  · have hne : h - 1 - y ≠ y := by omega
    rw [hboth]
    simp [candidates, hcol hc, dedupFirst_cons, hne]
  · have hne : w - 1 - x ≠ x := by omega
    rw [hboth]
    simp [candidates, hrow hr, dedupFirst_cons, hne]
  · rw [hboth]
    simp [candidates, hcol hc, hrow hr]

end Sys2Proof.Machine
end

section
/-! SUPPORT. The quantizer (R127 to R135): the levels and the direct index, what the search answers for any palette,
which indices of the fixed palette hold a colour first, and what `quantize` makes of both. -/

namespace Sys2Proof.Machine

/-! ### The level of a channel (R128) -/

/-- A channel lies at most 25 from its level, so strictly nearer to it than the middle between two levels. -/
theorem level_bounds (c : BitVec 8) : 51 * level c ≤ c.toNat + 25 ∧ c.toNat ≤ 51 * level c + 25 := by
  simp only [level, Config.cubeStep]
  omega

theorem level_le (c : BitVec 8) : level c ≤ 5 := by
  have hbounds := level_bounds c
  omega

theorem level_nearest (c : BitVec 8) (n : Int) : |(c.toNat : Int) - 51 * level c| ≤ |(c.toNat : Int) - 51 * n| := by
  obtain ⟨hlow, hhigh⟩ := level_bounds c
  rcases eq_or_ne n (level c : Int) with rfl | hn
  · exact le_rfl
  · have hnear : |(c.toNat : Int) - 51 * level c| ≤ 25 := abs_le.mpr (by omega)
    have hfar : 25 ≤ |(c.toNat : Int) - 51 * n| := le_abs.mpr (by omega)
    exact hnear.trans hfar

@[simp] theorem level_multiple {l : Nat} (hl : l ≤ 5) : level (BitVec.ofNat 8 (51 * l)) = l := by
  have hbounds := level_bounds (BitVec.ofNat 8 (51 * l))
  rw [BitVec.toNat_ofNat, Nat.mod_eq_of_lt (by omega)] at hbounds
  omega

/-! ### The entries of the palette (R41, R42) -/

/-- The colour of the cube at three levels. -/
def cubeColour (l m n : Nat) : Rgb := ⟨BitVec.ofNat 8 (51 * l), BitVec.ofNat 8 (51 * m), BitVec.ofNat 8 (51 * n)⟩

/-- The place of three levels in the cube, blue innermost. -/
def cubeIndex (l m n : Nat) : Nat := 1 + (l * 6 + m) * 6 + n

theorem paletteEntry_cubeIndex {l m n : Nat} (hl : l ≤ 5) (hm : m ≤ 5) (hn : n ≤ 5) :
    Config.paletteEntry (cubeIndex l m n) = cubeColour l m n := by
  have hparts : 1 ≤ cubeIndex l m n ∧ cubeIndex l m n ≤ 216 ∧ (cubeIndex l m n - 1) / 36 = l ∧
      (cubeIndex l m n - 1) / 6 % 6 = m ∧ (cubeIndex l m n - 1) % 6 = n := by
    simp only [cubeIndex]
    omega
  obtain ⟨hpos, hle, hred, hgreen, hblue⟩ := hparts
  simp [Config.paletteEntry, Config.cubeFirst, Config.cubeLast, Config.cubeStep, cubeColour, hpos, hle, hred, hgreen,
    hblue]

theorem exists_cubeIndex {i : Nat} (hi : 1 ≤ i) (hi' : i ≤ 216) :
    ∃ l m n, l ≤ 5 ∧ m ≤ 5 ∧ n ≤ 5 ∧ cubeIndex l m n = i :=
  ⟨(i - 1) / 36, (i - 1) / 6 % 6, (i - 1) % 6, by omega, by omega, by omega, by simp only [cubeIndex]; omega⟩

theorem paletteEntry_ramp {i : Nat} (hi : 217 ≤ i) (hi' : i ≤ 240) :
    Config.paletteEntry i = ⟨BitVec.ofNat 8 (Config.grayRamp (i - 217)), BitVec.ofNat 8 (Config.grayRamp (i - 217)),
      BitVec.ofNat 8 (Config.grayRamp (i - 217))⟩ := by
  have hcube : ¬ i ≤ 216 := by omega
  simp [Config.paletteEntry, Config.cubeLast, Config.grayFirst, Config.grayLast, hi, hi', hcube]

/-- Entry 0, the start of the ramp and the padding are the black of the cube (R45). -/
theorem palRead_palette_black {i : BitVec 8} (hi : i.toNat = 0 ∨ i.toNat = 217 ∨ 241 ≤ i.toNat) :
    palRead Config.palette i = palRead Config.palette 1#8 := by
  simp only [palRead_palette]
  rcases hi with hi | hi | hi
  · rw [hi]
    decide
  · rw [hi]
    decide
  · have hcube : ¬ i.toNat ≤ 216 := by omega
    have hramp : ¬ i.toNat ≤ 240 := by omega
    simp [Config.paletteEntry, Config.cubeFirst, Config.cubeLast, Config.grayLast, hcube, hramp]

/-- The end of the ramp is the white of the cube (R45). -/
theorem palRead_palette_white {i : BitVec 8} (hi : i.toNat = 240) :
    palRead Config.palette i = palRead Config.palette 216#8 := by
  simp only [palRead_palette, hi]
  decide

/-! ### The direct index (R128) -/

theorem cubeIndex_le {l m n : Nat} (hl : l ≤ 5) (hm : m ≤ 5) (hn : n ≤ 5) : cubeIndex l m n ≤ 216 := by
  simp only [cubeIndex]
  omega

theorem direct_toNat (c : Rgb) : (direct c).toNat = cubeIndex (level c.r) (level c.g) (level c.b) := by
  have hle := cubeIndex_le (level_le c.r) (level_le c.g) (level_le c.b)
  exact (BitVec.toNat_ofNat _ _).trans (Nat.mod_eq_of_lt (hle.trans_lt (by decide)))

theorem direct_toNat_pos (c : Rgb) : 1 ≤ (direct c).toNat := by
  simp only [direct_toNat, cubeIndex]
  omega

theorem direct_toNat_le (c : Rgb) : (direct c).toNat ≤ 216 := by
  rw [direct_toNat]
  exact cubeIndex_le (level_le _) (level_le _) (level_le _)

theorem palRead_direct (c : Rgb) :
    palRead Config.palette (direct c) = cubeColour (level c.r) (level c.g) (level c.b) := by
  rw [palRead_palette, direct_toNat, paletteEntry_cubeIndex (level_le _) (level_le _) (level_le _)]

/-- A colour of the cube has its own index as direct index. -/
theorem direct_palRead {i : BitVec 8} (hi : 1 ≤ i.toNat) (hi' : i.toNat ≤ 216) :
    direct (palRead Config.palette i) = i := by
  obtain ⟨l, m, n, hl, hm, hn, hindex⟩ := exists_cubeIndex hi hi'
  apply BitVec.eq_of_toNat_eq
  rw [direct_toNat, palRead_palette, ← hindex, paletteEntry_cubeIndex hl hm hn]
  simp only [cubeColour, level_multiple hl, level_multiple hm, level_multiple hn]

/-! ### The distance (R130, R131) -/

theorem distance_nonneg (c e : Rgb) : 0 ≤ distance c e := by
  exact add_nonneg (add_nonneg (mul_self_nonneg _) (mul_self_nonneg _)) (mul_self_nonneg _)

theorem channelDiff_mul_self_le (u v : BitVec 8) : channelDiff u v * channelDiff u v ≤ 65025 := by
  have hu := u.isLt
  have hv := v.isLt
  have hdiff : |channelDiff u v| ≤ |(255 : Int)| := by
    rw [abs_of_pos (by decide : (0 : Int) < 255), abs_le]
    simp only [channelDiff]
    omega
  exact abs_le_iff_mul_self_le.mp hdiff

/-- Every distance is below the `+∞` the search starts from (R131). -/
theorem distance_lt_farther (c e : Rgb) : distance c e < farther := by
  have hr := channelDiff_mul_self_le c.r e.r
  have hg := channelDiff_mul_self_le c.g e.g
  have hb := channelDiff_mul_self_le c.b e.b
  simp only [distance, farther]
  omega

@[simp] theorem channelDiff_eq_zero {u v : BitVec 8} : channelDiff u v = 0 ↔ u = v := by
  rw [channelDiff, sub_eq_zero, Nat.cast_inj, BitVec.toNat_inj]

theorem distance_eq_zero {c e : Rgb} : distance c e = 0 ↔ c = e := by
  obtain ⟨r, g, b⟩ := c
  obtain ⟨r', g', b'⟩ := e
  have hr := mul_self_nonneg (channelDiff r r')
  have hg := mul_self_nonneg (channelDiff g g')
  have hb := mul_self_nonneg (channelDiff b b')
  simp only [distance, Rgb.mk.injEq]
  rw [add_eq_zero_iff_of_nonneg (add_nonneg hr hg) hb, add_eq_zero_iff_of_nonneg hr hg]
  simp only [mul_self_eq_zero, channelDiff_eq_zero, and_assoc]

/-! ### The search (R130) -/

/-- What the search looks for: the least of the nearest indices of a list. -/
def LeastNearest (pal : Palette) (c : Rgb) (is : List (BitVec 8)) (i : BitVec 8) : Prop :=
  i ∈ is ∧ ∀ j ∈ is, distance c (palRead pal i) ≤ distance c (palRead pal j) ∧
    (j.toNat < i.toNat → distance c (palRead pal i) < distance c (palRead pal j))

/-- With a distance of 0 held no later entry is strictly nearer. -/
theorem searchLoop_zero (pal : Palette) (c : Rgb) (is : List (BitVec 8)) (idx : BitVec 8) :
    searchLoop pal c is 0 idx = idx := by
  induction is with
  | nil => rfl
  | cons i is ih =>
    have hnot : ¬ distance c (palRead pal i) < 0 := (distance_nonneg _ _).not_gt
    simp only [searchLoop, hnot, if_false, ih]

/-- The short-circuit does not change the result (R130). -/
theorem searchLoop_cons (pal : Palette) (c : Rgb) (i : BitVec 8) (is : List (BitVec 8)) (best : Int) (idx : BitVec 8) :
    searchLoop pal c (i :: is) best idx =
      if distance c (palRead pal i) < best then searchLoop pal c is (distance c (palRead pal i)) i
      else searchLoop pal c is best idx := by
  rcases eq_or_ne (distance c (palRead pal i)) 0 with hzero | hzero
  · simp only [searchLoop, hzero, searchLoop_zero, if_true]
  · simp only [searchLoop, hzero, if_false]

/-- Holding an index before a rising list, the loop answers the least nearest of them all. -/
theorem searchLoop_leastNearest (pal : Palette) (c : Rgb) (is : List (BitVec 8)) (idx : BitVec 8)
    (hsorted : (idx :: is).Pairwise fun i j => i.toNat < j.toNat) :
    LeastNearest pal c (idx :: is) (searchLoop pal c is (distance c (palRead pal idx)) idx) := by
  induction is generalizing idx with
  | nil => simp [LeastNearest, searchLoop]
  | cons i is ih =>
    obtain ⟨hidx, htail⟩ := List.pairwise_cons.mp hsorted
    have hidxi : idx.toNat < i.toNat := hidx i List.mem_cons_self
    rw [searchLoop_cons]
    split
    case isTrue hnearer =>
      obtain ⟨hmem, hleast⟩ := ih i htail
      have hi := (hleast i List.mem_cons_self).1
      refine ⟨List.mem_cons_of_mem _ hmem, List.forall_mem_cons.mpr ⟨?_, hleast⟩⟩
      exact ⟨(hi.trans_lt hnearer).le, fun _ => hi.trans_lt hnearer⟩
    case isFalse hfarther =>
      have hi := not_lt.mp hfarther
      have hskip : (idx :: is).Pairwise fun i j => i.toNat < j.toNat :=
        hsorted.sublist ((List.sublist_cons_self i is).cons_cons idx)
      obtain ⟨hmem, hleast⟩ := ih idx hskip
      obtain ⟨hleastIdx, hleastTail⟩ := List.forall_mem_cons.mp hleast
      refine ⟨?_, List.forall_mem_cons.mpr ⟨hleastIdx, List.forall_mem_cons.mpr ⟨?_, hleastTail⟩⟩⟩
      · exact ((List.sublist_cons_self i is).cons_cons idx).subset hmem
      · exact ⟨hleastIdx.1.trans hi, fun hlt => (hleastIdx.2 (hidxi.trans hlt)).trans_le hi⟩

theorem mem_searchIndices {i : BitVec 8} : i ∈ searchIndices ↔ 1 ≤ i.toNat := by
  simp only [searchIndices, List.mem_map, List.mem_range'_1]
  constructor
  · rintro ⟨n, hn, rfl⟩
    rw [BitVec.toNat_ofNat, Nat.mod_eq_of_lt (by omega)]
    exact hn.1
  · intro hi
    exact ⟨i.toNat, ⟨hi, by omega⟩, by simp⟩

theorem searchIndices_sorted : searchIndices.Pairwise fun i j => i.toNat < j.toNat := by
  refine List.pairwise_map.mpr (List.Pairwise.imp_of_mem (fun {m n} hm hn hlt => ?_) List.pairwise_lt_range')
  rw [List.mem_range'_1] at hm hn
  rw [BitVec.toNat_ofNat, BitVec.toNat_ofNat]
  omega

theorem search_leastNearest (pal : Palette) (c : Rgb) : LeastNearest pal c searchIndices (search pal c) := by
  obtain ⟨is, his⟩ : ∃ is, searchIndices = 1#8 :: is := ⟨_, rfl⟩
  have hsorted := searchIndices_sorted
  rw [search, his, searchLoop_cons, if_pos (distance_lt_farther _ _)]
  rw [his] at hsorted
  exact searchLoop_leastNearest pal c is 1#8 hsorted

theorem search_pos (pal : Palette) (c : Rgb) : 1 ≤ (search pal c).toNat :=
  mem_searchIndices.mp (search_leastNearest pal c).1

/-- A colour whose first index in 1..255 is `i` is found there. -/
theorem search_eq_of_first {pal : Palette} {c : Rgb} {i : BitVec 8} (hi : 1 ≤ i.toNat) (hc : palRead pal i = c)
    (hfirst : ∀ j : BitVec 8, 1 ≤ j.toNat → palRead pal j = c → i.toNat ≤ j.toNat) : search pal c = i := by
  obtain ⟨-, hleast⟩ := search_leastNearest pal c
  obtain ⟨hle, hlower⟩ := hleast i (mem_searchIndices.mpr hi)
  have hzero : distance c (palRead pal i) = 0 := distance_eq_zero.mpr hc.symm
  rw [hzero] at hle hlower
  have hfound : distance c (palRead pal (search pal c)) = 0 := le_antisymm hle (distance_nonneg _ _)
  have hge : i.toNat ≤ (search pal c).toNat := hfirst _ (search_pos pal c) (distance_eq_zero.mp hfound).symm
  exact BitVec.eq_of_toNat_eq (le_antisymm (not_lt.mp fun hlt => (hlower hlt).ne hfound) hge)

/-- An index whose colour stands at a lower index too is never answered. -/
theorem search_ne_of_lower_duplicate {pal : Palette} {i j : BitVec 8} (hj : 1 ≤ j.toNat) (hji : j.toNat < i.toNat)
    (hsame : palRead pal j = palRead pal i) (c : Rgb) : search pal c ≠ i := by
  rintro rfl
  have hlt := ((search_leastNearest pal c).2 j (mem_searchIndices.mpr hj)).2 hji
  rw [hsame] at hlt
  exact lt_irrefl _ hlt

/-! ### Where a colour stands first in the palette (R45) -/

/-- A grey between the ends of the ramp is no colour of the cube. -/
theorem grayRamp_ne_multiple {n : Nat} (hn : 1 ≤ n) (hn' : n ≤ 22) (l : Nat) : Config.grayRamp n ≠ 51 * l := by
  simp only [Config.grayRamp]
  omega

theorem grayRamp_lt {n : Nat} (hn : n ≤ 23) : Config.grayRamp n < 256 := by
  simp only [Config.grayRamp]
  omega

theorem grayRamp_injective : Function.Injective Config.grayRamp := fun m n h => by
  simp only [Config.grayRamp] at h
  omega

/-- Inside the ramp the red channel is the grey. -/
theorem palRead_ramp_red {i : BitVec 8} (hi : 217 ≤ i.toNat) (hi' : i.toNat ≤ 240) :
    (palRead Config.palette i).r.toNat = Config.grayRamp (i.toNat - 217) := by
  rw [palRead_palette, paletteEntry_ramp hi hi', BitVec.toNat_ofNat, Nat.mod_eq_of_lt (grayRamp_lt (by omega))]

theorem palRead_cube_red {i : BitVec 8} (hi : 1 ≤ i.toNat) (hi' : i.toNat ≤ 216) :
    (palRead Config.palette i).r.toNat = 51 * level (palRead Config.palette i).r := by
  have hlevel := level_le (palRead Config.palette i).r
  conv_lhs => rw [← direct_palRead hi hi', palRead_direct, cubeColour, BitVec.toNat_ofNat]
  omega

/-- Outside the ends of the ramp and the padding, an entry is the first of its colour after entry 0. -/
theorem palRead_palette_first {i j : BitVec 8} (hi' : i.toNat ≤ 239) (hne : i.toNat ≠ 217)
    (hj : 1 ≤ j.toNat) (hsame : palRead Config.palette j = palRead Config.palette i) : i.toNat ≤ j.toNat := by
  by_contra hlt
  have hji := not_le.mp hlt
  have hcases : i.toNat ≤ 216 ∨ 218 ≤ i.toNat := by omega
  rcases hcases with hcube | hramp
  · have hdirect : j = i := by
      rw [← direct_palRead hj (by omega), hsame, direct_palRead (by omega) hcube]
    exact hji.ne (congrArg BitVec.toNat hdirect)
  · have hred := palRead_ramp_red (i := i) (by omega) (by omega)
    rw [← hsame] at hred
    rcases le_or_gt j.toNat 216 with hjcube | hjramp
    · rw [palRead_cube_red hj hjcube] at hred
      exact grayRamp_ne_multiple (by omega) (by omega) _ hred.symm
    · rw [palRead_ramp_red (by omega) (by omega)] at hred
      have hsub := grayRamp_injective hred
      omega

/-- The search finds the colour of such an entry there. -/
theorem search_palRead_palette {i : BitVec 8} (hi : 1 ≤ i.toNat) (hi' : i.toNat ≤ 239) (hne : i.toNat ≠ 217) :
    search Config.palette (palRead Config.palette i) = i :=
  search_eq_of_first hi rfl fun _ => palRead_palette_first hi' hne

theorem exists_lower_duplicate {i : BitVec 8} (hi : i.toNat = 217 ∨ 240 ≤ i.toNat) :
    ∃ j : BitVec 8, 1 ≤ j.toNat ∧ j.toNat < i.toNat ∧ palRead Config.palette j = palRead Config.palette i := by
  rcases eq_or_ne i.toNat 240 with hwhite | hwhite
  · exact ⟨216#8, by decide, by rw [hwhite]; decide, (palRead_palette_white hwhite).symm⟩
  · have hblack : i.toNat = 217 ∨ 241 ≤ i.toNat := by omega
    exact ⟨1#8, by decide, by rw [BitVec.toNat_ofNat]; omega, (palRead_palette_black (.inr hblack)).symm⟩

theorem search_palette_range (c : Rgb) :
    (search Config.palette c).toNat ≤ 239 ∧ (search Config.palette c).toNat ≠ 217 := by
  by_contra hrange
  obtain ⟨j, hj, hlt, hsame⟩ := exists_lower_duplicate (i := search Config.palette c) (by omega)
  exact search_ne_of_lower_duplicate hj hlt hsame c rfl

/-! ### `quantize` (R127, R133) -/

@[simp] theorem pixelColour_channels (c : Rgb) (a : BitVec 8) : pixelColour ⟨c.r, c.g, c.b, a⟩ = c := rfl

theorem quantize_of_transparent (q : QFast) (pal : Palette) {p : Pixel} (hp : p.a.toNat < 128) :
    quantize q pal p = 0#8 :=
  if_pos hp

theorem quantize_of_opaque (q : QFast) (pal : Palette) {p : Pixel} (hp : 128 ≤ p.a.toNat) :
    quantize q pal p =
      if q = .always ∨ palRead pal (direct (pixelColour p)) = pixelColour p then direct (pixelColour p)
      else search pal (pixelColour p) :=
  if_neg hp.not_gt

/-- The fast path answers what the search would (R134). -/
theorem quantize_inputExact_of_opaque {p : Pixel} (hp : 128 ≤ p.a.toNat) :
    quantize .inputExact Config.palette p = search Config.palette (pixelColour p) := by
  rw [quantize_of_opaque _ _ hp]
  split
  case isTrue hfast =>
    have hexact := hfast.resolve_left (by decide)
    have hle := direct_toNat_le (pixelColour p)
    have hsearch := search_palRead_palette (direct_toNat_pos (pixelColour p)) (by omega) (by omega)
    rw [hexact] at hsearch
    exact hsearch.symm
  case isFalse => rfl

theorem quantize_always_of_opaque (pal : Palette) {p : Pixel} (hp : 128 ≤ p.a.toNat) :
    quantize .always pal p = direct (pixelColour p) := by
  rw [quantize_of_opaque _ _ hp, if_pos (.inl rfl)]

/-! ### The statements -/

/-- Settles O42. -/
theorem directIndexIsNearestCube : Obligations.DirectIndexIsNearestCube := by
  refine ⟨fun c => ⟨level_le c, fun n _ => level_nearest c n, ?_⟩, fun c =>
    ⟨direct_toNat c, direct_toNat_pos c, direct_toNat_le c, palRead_direct c⟩⟩
  have hbounds := level_bounds c
  omega

/-- Settles O43. -/
theorem searchIsNearestLowest : Obligations.SearchIsNearestLowest := fun pal c =>
  ⟨search_pos pal c, fun j hj => (search_leastNearest pal c).2 j (mem_searchIndices.mpr hj)⟩

/-- Settles O44: for an opaque pixel `quantize` is the search, whose answers the duplicates of the palette bound. -/
theorem quantizerProperties : Obligations.QuantizerProperties := by
  refine ⟨fun p hp => quantize_inputExact_of_opaque hp, fun p => ⟨fun hzero => ?_, quantize_of_transparent _ _⟩,
    fun p => ?_, fun i => exists_lower_duplicate, fun i a ha hi hi' hne => ?_, fun p => ?_⟩
  · by_contra hp
    have hpos := search_pos Config.palette (pixelColour p)
    rw [← quantize_inputExact_of_opaque (not_lt.mp hp), hzero] at hpos
    exact absurd hpos (by decide)
  · rcases lt_or_ge p.a.toNat 128 with hp | hp
    · rw [quantize_of_transparent _ _ hp]
      decide
    · rw [quantize_inputExact_of_opaque hp]
      exact search_palette_range _
  · rw [quantize_inputExact_of_opaque ha, pixelColour_channels]
    exact search_palRead_palette hi hi' hne
  · rcases lt_or_ge p.a.toNat 128 with hp | hp
    · rw [quantize_of_transparent _ _ hp]
      decide
    · rw [quantize_always_of_opaque _ hp]
      exact direct_toNat_le _

/-- Settles O45: the entries that are no fixed points are those `quantize` never answers, and each is answered by the
index its colour has in the cube. -/
theorem quantizerFixedPoints : Obligations.QuantizerFixedPoints := by
  intro i a ha own
  obtain ⟨-, hzero, hrange, -, hfixed, halways⟩ := quantizerProperties
  refine ⟨⟨fun hown => ?_, fun ⟨hi, hne, hi'⟩ => hfixed i a ha (by omega) (by omega) hne⟩,
    fun hi => ?_, fun hi => ?_, fun hi _ hown => ?_⟩
  · have hnotZero : own .inputExact ≠ 0#8 := fun h => absurd ((hzero _).mp h) (not_lt.mpr ha)
    have hans : (own .inputExact).toNat ≤ 239 ∧ (own .inputExact).toNat ≠ 217 := hrange _
    rw [hown] at hnotZero hans
    have hpos : i.toNat ≠ 0 := fun h => hnotZero (BitVec.eq_of_toNat_eq h)
    omega
  · simp only [own, palRead_palette_black hi]
    exact hfixed 1#8 a ha (by decide) (by decide) (by decide)
  · simp only [own, palRead_palette_white hi]
    exact hfixed 216#8 a ha (by decide) (by decide) (by decide)
  · have hle : (own .always).toNat ≤ 216 := halways _
    rw [hown] at hle
    omega

/-- Settles O41. -/
theorem alphaThreshold : Obligations.AlphaThreshold := by
  intro q pal r g b a a'
  refine ⟨fun ha => quantize_of_transparent q pal ha, fun ha ha' => ?_⟩
  rw [quantize_of_opaque q pal ha, quantize_of_opaque q pal ha']
  rfl

end Sys2Proof.Machine
end

section
/-! SUPPORT. The compressor's commands in each phase (R154): what they answer, which operations keep `PHASE`, and the
encodes of no symbol and of one symbol (R161, R162), put together from the output of single bytes. -/

namespace Sys2Proof.Machine

/-! ### A command in each phase (R153 to R155, R160) -/

theorem exec_lzwStart_of_active {s : State} (h : s.lzw.phase = .active) :
    exec .lzwStart s = .next (refuse Opcode.lzwStart.byte .errProtocol s) := by
  simp only [exec, execLzwStart, h]

theorem exec_lzwStart_of_idle {s : State} (h : s.lzw.phase = .idle) :
    exec .lzwStart s =
      .next (respond Opcode.lzwStart.byte .ok 0#48 (emit Config.clearCode false (openEncode s))) := by
  simp only [exec, execLzwStart, h]

theorem exec_lzwPut_of_idle (k : Symbol) {s : State} (h : s.lzw.phase = .idle) :
    exec (.lzwPut k) s = .next (refuse Opcode.lzwPut.byte .errProtocol s) := by
  simp only [exec, execLzwPut, h]

theorem exec_lzwPut_of_active (k : Symbol) {s : State} (h : s.lzw.phase = .active) :
    exec (.lzwPut k) s =
      .next (respond Opcode.lzwPut.byte .ok 0#48 (consume k (s.setLzw { s.lzw with nsym := s.lzw.nsym + 1 }))) := by
  simp only [exec, execLzwPut, h]

theorem exec_lzwFinish_of_idle {s : State} (h : s.lzw.phase = .idle) :
    exec .lzwFinish s = .next (refuse Opcode.lzwFinish.byte .errProtocol s) := by
  simp only [exec, execLzwFinish, h]

theorem exec_lzwFinish_of_active {s : State} (h : s.lzw.phase = .active) :
    exec .lzwFinish s =
      .next (respond Opcode.lzwFinish.byte .ok 0#48 (closeEncode (finishOutput .insertTime s))) := by
  simp only [exec, execLzwFinish, h, Config.endWidthRule]

/-! ### What a command's end and the close of an encode keep -/

@[simp] theorem respond_lzw (op : BitVec 8) (st : Status) (payload : BitVec 48) (s : State) :
    (respond op st payload s).lzw = s.lzw := rfl

@[simp] theorem respond_out (op : BitVec 8) (st : Status) (payload : BitVec 48) (s : State) :
    (respond op st payload s).out = s.out := rfl

@[simp] theorem respond_codes (op : BitVec 8) (st : Status) (payload : BitVec 48) (s : State) :
    (respond op st payload s).codes = s.codes := rfl

@[simp] theorem closeEncode_phase (s : State) : (closeEncode s).lzw.phase = .idle := rfl

@[simp] theorem closeEncode_out (s : State) : (closeEncode s).out = s.out := rfl

@[simp] theorem closeEncode_codes (s : State) : (closeEncode s).codes = s.codes := rfl

/-! ### The operations of an open encode keep `PHASE` -/

@[simp] theorem openEncode_phase (s : State) : (openEncode s).lzw.phase = .active := rfl

@[simp] theorem lzwReset_phase (s : State) : (lzwReset s).lzw.phase = s.lzw.phase := rfl

@[simp] theorem lzwInsert_phase (p : Code) (k : Symbol) (s : State) : (lzwInsert p k s).lzw.phase = s.lzw.phase := rfl

@[simp] theorem setPfx_phase (p : Option Code) (s : State) : (setPfx p s).lzw.phase = s.lzw.phase := rfl

@[simp] theorem emit_phase (code : Code) (closing : Bool) (s : State) :
    (emit code closing s).lzw.phase = s.lzw.phase := by
  obtain ⟨beats, bcnt, -, -, -, -, hemit⟩ := emit_spec code closing s
  rw [hemit]

@[simp] theorem putUnknown_phase (p : Code) (k : Symbol) (s : State) :
    (putUnknown p k s).lzw.phase = s.lzw.phase := by
  simp only [putUnknown, setPfx_phase]
  split <;> simp

@[simp] theorem consume_phase (k : Symbol) (s : State) : (consume k s).lzw.phase = s.lzw.phase := by
  unfold consume
  split
  case h_1 => simp
  case h_2 => split <;> simp

/-! ### The output of single bytes (R150, R151, R160) -/

theorem subBlockEnds_of_last (count : Nat) : subBlockEnds count true = true := Bool.or_true _

theorem subBlockEnds_of_short {count : Nat} (h : count < 255) : subBlockEnds count false = false := by
  simp only [subBlockEnds, Config.subblockMax, Bool.or_false, beq_eq_false_iff_ne]
  exact h.ne

/-- The next code emitted fills exactly one byte, leaves bits pending, and does not fill the open sub-block. -/
def FillsOneByte (l : LzwRegs) : Prop :=
  8 < l.nbits.toNat + l.width.toNat ∧ l.nbits.toNat + l.width.toNat < 16 ∧ l.bcnt.toNat < 254

/-- A code that fills one byte and leaves bits pending outputs that byte, unmarked while the sub-block stays open. -/
theorem emit_one_byte (code : Code) (closing : Bool) {s : State} (h : FillsOneByte s.lzw) :
    emit code closing s =
      let total := s.lzw.acc.toNat + code.toNat * 2 ^ s.lzw.nbits.toNat
      { s with
        out := s.out ++ [beat (BitVec.ofNat 8 total) false false]
        codes := s.codes ++ [(code, s.lzw.width)]
        lzw := { s.lzw with
          acc := BitVec.ofNat 19 (total / 256)
          nbits := BitVec.ofNat 5 (s.lzw.nbits.toNat + s.lzw.width.toNat - 8)
          bcnt := BitVec.ofNat 8 (s.lzw.bcnt.toNat + 1) } } := by
  obtain ⟨hlow, hhigh, hbcnt⟩ := h
  have hturns : (s.lzw.nbits.toNat + s.lzw.width.toNat) / 8 = 1 := by omega
  have hrest : (closing && s.lzw.nbits.toNat + s.lzw.width.toNat - 8 == 0) = false := by
    have hne : s.lzw.nbits.toNat + s.lzw.width.toNat - 8 ≠ 0 := by omega
    simp [hne]
  have hopen : subBlockEnds (s.lzw.bcnt.toNat + 1) false = false := subBlockEnds_of_short (by omega)
  simp only [emit, hturns, drain, hrest, outbyte_eq, State.setCodes_lzw, hopen]
  rfl

/-- Pending bits are flushed as the last byte, which closes its sub-block. -/
theorem flush_of_pending {s : State} (h : s.lzw.nbits ≠ 0) :
    flush s =
      { s with
        out := s.out ++ [beat (s.lzw.acc.setWidth 8) true true]
        lzw := { s.lzw with acc := 0, nbits := 0, bcnt := 0 } } := by
  simp only [flush, if_neg h, outbyte_eq, subBlockEnds_of_last]
  rfl

theorem finishPrefix_of_none (rule : EndWidthRule) {s : State} (h : s.lzw.pfx = none) : finishPrefix rule s = s := by
  simp only [finishPrefix, h]

theorem finishPrefix_insertTime_of_some {p : Code} {s : State} (h : s.lzw.pfx = some p) :
    finishPrefix .insertTime s = emit p false s := by
  simp only [finishPrefix, h]

/-- A code that fills one byte, then the flush: that byte, and the rest of the code as the last byte. -/
theorem flush_emit_one_byte (code : Code) (closing : Bool) {s : State} (h : FillsOneByte s.lzw) :
    let total := s.lzw.acc.toNat + code.toNat * 2 ^ s.lzw.nbits.toNat
    (flush (emit code closing s)).codes = s.codes ++ [(code, s.lzw.width)] ∧
      (flush (emit code closing s)).out =
        s.out ++ [beat (BitVec.ofNat 8 total) false false, beat (BitVec.ofNat 8 (total / 256)) true true] := by
  intro total
  have hpending : BitVec.ofNat 5 (s.lzw.nbits.toNat + s.lzw.width.toNat - 8) ≠ 0 := by
    obtain ⟨hlow, hhigh, -⟩ := h
    bv_omega
  have hbyte : (BitVec.ofNat 19 (total / 256)).setWidth 8 = BitVec.ofNat 8 (total / 256) :=
    BitVec.setWidth_ofNat_of_le (by decide) _
  rw [emit_one_byte code closing h, flush_of_pending hpending]
  simp only [List.append_assoc, List.singleton_append, hbyte, total, and_self]

/-! ### Runs of commands (R59) -/

@[simp] theorem runInstrs_nil (s : State) : runInstrs [] s = some s := rfl

theorem runInstrs_cons {i : Instr} {s t : State} (h : exec i s = .next t) (is : List Instr) :
    runInstrs (i :: is) s = runInstrs is t := by
  simp only [runInstrs, h]

/-! ### The encodes of no symbol and of one symbol (R161, R162) -/

/-- The LZW elements as `LZW.START` leaves them (R153): of CLEAR one byte is output and one bit pending. -/
def startedLzw : LzwRegs :=
  { phase := .active, dict := [], nextCode := 258#13, width := 9#4, pfx := none, acc := 1#19, nbits := 1#5,
    bcnt := 1#8, nsym := 0 }

/-- The LZW elements after `LZW.START` and one `LZW.PUT` (R155): the symbol is the prefix and nothing more is output. -/
def oneSymbolLzw (k : Symbol) : LzwRegs := { startedLzw with pfx := some (literalCode k), nsym := 1 }

@[simp] theorem literalCode_toNat (k : Symbol) : (literalCode k).toNat = k.toNat :=
  BitVec.toNat_setWidth_of_le (by decide)

theorem openEncode_lzw (s : State) : (openEncode s).lzw = { startedLzw with acc := 0, nbits := 0, bcnt := 0 } := rfl

theorem emit_clear_openEncode (s : State) :
    emit Config.clearCode false (openEncode s) =
      { s with lzw := startedLzw, codes := [(256#12, 9#4)], out := s.out ++ [0x000#10] } := by
  rw [emit_one_byte _ _ (by simp [FillsOneByte, openEncode_lzw, startedLzw]), openEncode_lzw]
  rfl

/-- What `LZW.START` leaves behind (R153). -/
theorem exec_lzwStart_started {s : State} (h : s.lzw.phase = .idle) :
    ∃ t, exec .lzwStart s = .next t ∧ t.lzw = startedLzw ∧ t.codes = [(256#12, 9#4)] ∧ t.out = s.out ++ [0x000#10] := by
  rw [exec_lzwStart_of_idle h, emit_clear_openEncode]
  exact ⟨_, rfl, rfl, rfl, rfl⟩

/-- The first symbol of an encode only becomes the prefix (R155). -/
theorem consume_of_none (k : Symbol) {s : State} (h : s.lzw.pfx = none) :
    consume k s = setPfx (some (literalCode k)) s := by
  simp only [consume, h]

theorem exec_lzwPut_started (k : Symbol) {s : State} (h : s.lzw = startedLzw) :
    ∃ t, exec (.lzwPut k) s = .next t ∧ t.lzw = oneSymbolLzw k ∧
      t.codes = s.codes ∧ t.out = s.out := by
  rw [exec_lzwPut_of_active k (by rw [h]; rfl), consume_of_none k (by rw [h]; rfl), h]
  exact ⟨_, rfl, rfl, rfl, rfl⟩

theorem exec_lzwFinish_output {s : State} (h : s.lzw.phase = .active) :
    ∃ t, exec .lzwFinish s = .next t ∧ t.codes = (finishOutput .insertTime s).codes ∧
      t.out = (finishOutput .insertTime s).out :=
  ⟨_, exec_lzwFinish_of_active h, rfl, rfl⟩

/-- Behind CLEAR, END is cut into its 7 low bits and its 2 high bits. -/
theorem finishOutput_no_symbol {s : State} (h : s.lzw = startedLzw) :
    (finishOutput .insertTime s).codes = s.codes ++ [(257#12, 9#4)] ∧
      (finishOutput .insertTime s).out = s.out ++ [0x003#10, 0x302#10] := by
  obtain ⟨hcodes, hout⟩ := flush_emit_one_byte Config.endCode true (s := s) (by simp [FillsOneByte, h, startedLzw])
  rw [finishOutput, finishPrefix_of_none _ (by rw [h]; rfl), hcodes, hout, h]
  exact ⟨rfl, rfl⟩

/-- The prefix code of one symbol behind CLEAR: a byte with its 7 low bits, and its high bits pending. -/
theorem emit_one_symbol (k : Symbol) {s : State} (h : s.lzw = oneSymbolLzw k) :
    ∃ b : Beat, (emit (literalCode k) false s).out = s.out ++ [b] ∧ beatData b = (1 + 2 * k.toNat) % 256 ∧
      beatSbLast b = false ∧ (emit (literalCode k) false s).codes = s.codes ++ [(k.setWidth 12, 9#4)] ∧
      (emit (literalCode k) false s).lzw =
        { oneSymbolLzw k with acc := BitVec.ofNat 19 (k.toNat / 128), nbits := 2#5, bcnt := 2#8 } := by
  have htotal : 1 + k.toNat * 2 = 1 + 2 * k.toNat := by omega
  have hrest : (1 + 2 * k.toNat) / 256 = k.toNat / 128 := by omega
  rw [emit_one_byte _ _ (by simp [FillsOneByte, h, oneSymbolLzw, startedLzw])]
  refine ⟨_, rfl, ?_, ?_, ?_, ?_⟩
  · simp [beatData, h, oneSymbolLzw, startedLzw, htotal]
  · simp [beatSbLast]
  · simp [h, oneSymbolLzw, startedLzw, literalCode]
  · simp [h, oneSymbolLzw, startedLzw, htotal, hrest]

/-- Behind that, END is cut into its 6 low bits and its 3 high bits. -/
theorem flush_emit_end_one_symbol (k : Symbol) {s : State}
    (h : s.lzw = { oneSymbolLzw k with acc := BitVec.ofNat 19 (k.toNat / 128), nbits := 2#5, bcnt := 2#8 }) :
    ∃ c : Beat, (flush (emit Config.endCode true s)).out = s.out ++ [c, 0x304#10] ∧
      beatData c = k.toNat / 128 + 4 ∧ beatSbLast c = false ∧
      (flush (emit Config.endCode true s)).codes = s.codes ++ [(257#12, 9#4)] := by
  have hk := k.isLt
  obtain ⟨hcodes, hout⟩ := flush_emit_one_byte Config.endCode true (s := s)
    (by simp [FillsOneByte, h, oneSymbolLzw, startedLzw])
  have htotal : s.lzw.acc.toNat + Config.endCode.toNat * 2 ^ s.lzw.nbits.toNat = k.toNat / 128 + 1028 := by
    have hpending : (BitVec.ofNat 19 (k.toNat / 128)).toNat = k.toNat / 128 := Nat.mod_eq_of_lt (by omega)
    rw [h, hpending]
    rfl
  have hlast : (k.toNat / 128 + 1028) / 256 = 4 := by omega
  rw [htotal, hlast] at hout
  refine ⟨_, hout, ?_, ?_, ?_⟩
  · rw [beatData, beat_data, BitVec.toNat_ofNat]
    omega
  · simp [beatSbLast]
  · rw [hcodes, h]
    rfl

/-- The whole output of `LZW.FINISH` after one symbol. -/
theorem finishOutput_one_symbol (k : Symbol) {s : State} (h : s.lzw = oneSymbolLzw k) :
    (finishOutput .insertTime s).codes = s.codes ++ [(k.setWidth 12, 9#4), (257#12, 9#4)] ∧
      ∃ b c : Beat, (finishOutput .insertTime s).out = s.out ++ [b, c, 0x304#10] ∧
        beatData b = (1 + 2 * k.toNat) % 256 ∧ beatData c = k.toNat / 128 + 4 ∧
        beatSbLast b = false ∧ beatSbLast c = false := by
  obtain ⟨b, hout, hb, hbsb, hcodes, hlzw⟩ := emit_one_symbol k h
  obtain ⟨c, hout', hc, hcsb, hcodes'⟩ := flush_emit_end_one_symbol k hlzw
  rw [finishOutput, finishPrefix_insertTime_of_some (p := literalCode k) (by rw [h]; rfl), hcodes', hout', hcodes, hout]
  exact ⟨by simp, b, c, by simp, hb, hc, hbsb, hcsb⟩

/-! ### The statements -/

/-- Settles O47: each command in each phase; only START and FINISH write `PHASE`. -/
theorem phaseRules : Obligations.PhaseRules := by
  refine fun s => ⟨fun hactive => ⟨exec_lzwStart_of_active hactive, ?_, fun k => ?_⟩, fun hidle =>
    ⟨fun k => exec_lzwPut_of_idle k hidle, exec_lzwFinish_of_idle hidle, ?_⟩⟩
  · exact ⟨_, exec_lzwFinish_of_active hactive, by simp⟩
  · exact ⟨_, exec_lzwPut_of_active k hactive, by simp [hactive]⟩
  · exact ⟨_, exec_lzwStart_of_idle hidle, by simp⟩

/-- Settles O56: the states of the two encodes command by command. -/
theorem shortEncodes : Obligations.ShortEncodes := by
  intro k s hidle
  obtain ⟨s₁, hstart, hlzw₁, hcodes₁, hout₁⟩ := exec_lzwStart_started hidle
  constructor
  · obtain ⟨t, hfinish, hcodes, hout⟩ := exec_lzwFinish_output (s := s₁) (by rw [hlzw₁]; rfl)
    obtain ⟨hcodes', hout'⟩ := finishOutput_no_symbol hlzw₁
    refine ⟨t, by rw [runInstrs_cons hstart, runInstrs_cons hfinish, runInstrs_nil], ?_, ?_⟩
    · rw [hcodes, hcodes', hcodes₁, List.singleton_append]
    · rw [hout, hout', hout₁, List.append_assoc, List.singleton_append]
  · obtain ⟨s₂, hput, hlzw₂, hcodes₂, hout₂⟩ := exec_lzwPut_started k hlzw₁
    obtain ⟨t, hfinish, hcodes, hout⟩ := exec_lzwFinish_output (s := s₂) (by rw [hlzw₂]; rfl)
    obtain ⟨hcodes', b, c, hout', hbytes⟩ := finishOutput_one_symbol k hlzw₂
    refine ⟨t, by rw [runInstrs_cons hstart, runInstrs_cons hput, runInstrs_cons hfinish, runInstrs_nil], ?_, b, c, ?_,
      hbytes⟩
    · rw [hcodes, hcodes', hcodes₂, hcodes₁, List.singleton_append]
    · rw [hout, hout', hout₂, hout₁, List.append_assoc, List.singleton_append]

end Sys2Proof.Machine
end

section
/-! SUPPORT. The status a command word is answered with (R72, R75): which operations append nothing to `RSP`, the one
status of a command in a state, and the words that make it `ERR_RESERVED` (R182) or `ERR_PROTOCOL` (R184). -/

namespace Sys2Proof.Machine

/-! ### The operations that append nothing to `RSP` -/

@[simp] theorem visClear_rsp (s : State) : (visClear s).rsp = s.rsp := rfl

@[simp] theorem openEncode_rsp (s : State) : (openEncode s).rsp = s.rsp := rfl

@[simp] theorem lzwReset_rsp (s : State) : (lzwReset s).rsp = s.rsp := rfl

@[simp] theorem lzwInsert_rsp (p : Code) (k : Symbol) (s : State) : (lzwInsert p k s).rsp = s.rsp := rfl

@[simp] theorem setPfx_rsp (p : Option Code) (s : State) : (setPfx p s).rsp = s.rsp := rfl

@[simp] theorem emit_rsp (code : Code) (closing : Bool) (s : State) : (emit code closing s).rsp = s.rsp := by
  obtain ⟨beats, bcnt, -, -, -, -, hemit⟩ := emit_spec code closing s
  rw [hemit]

@[simp] theorem putUnknown_rsp (p : Code) (k : Symbol) (s : State) : (putUnknown p k s).rsp = s.rsp := by
  simp only [putUnknown, setPfx_rsp]
  split <;> simp

@[simp] theorem consume_rsp (k : Symbol) (s : State) : (consume k s).rsp = s.rsp := by
  unfold consume
  split
  case h_1 => simp
  case h_2 => split <;> simp

@[simp] theorem finishPrefix_insertTime_rsp (s : State) : (finishPrefix .insertTime s).rsp = s.rsp := by
  cases h : s.lzw.pfx with
  | none => rw [finishPrefix_of_none _ h]
  | some p => rw [finishPrefix_insertTime_of_some h, emit_rsp]

@[simp] theorem flush_rsp (s : State) : (flush s).rsp = s.rsp := by
  by_cases h : s.lzw.nbits = 0
  · simp only [flush, if_pos h]
  · rw [flush_of_pending h]

@[simp] theorem finishOutput_insertTime_rsp (s : State) : (finishOutput .insertTime s).rsp = s.rsp := by
  simp [finishOutput]

@[simp] theorem closeEncode_rsp (s : State) : (closeEncode s).rsp = s.rsp := rfl

/-! ### The status of a command (R72, R94, R154) -/

/-- Behind the response words of `s`, `t` has a result word with this status, and perhaps further words. -/
def AnswersWith (st : Status) (s t : State) : Prop :=
  ∃ op payload points, t.rsp = s.rsp ++ resultWord op st payload :: points

theorem respond_answersWith (op : BitVec 8) (st : Status) (payload : BitVec 48) {s s' : State} (h : s'.rsp = s.rsp) :
    AnswersWith st s (respond op st payload s') :=
  ⟨op, payload, [], by rw [respond_eq, h]⟩

theorem refuse_answersWith (op : BitVec 8) (st : Status) (s : State) : AnswersWith st s (refuse op st s) :=
  respond_answersWith op st 0#48 rfl

theorem blendAnswer_answersWith (op : BitVec 8) (d : Int) (pix : BitVec 32) (skip : Skip) {s s' : State}
    (h : s'.rsp = s.rsp) : AnswersWith .ok s (blendAnswer op d pix skip s') :=
  respond_answersWith op .ok _ h

/-- The blender refuses nothing: a skipped cell, too, is answered with status 0 (R113). -/
theorem additive_answersWith (marks : Bool) (op : BitVec 8) (d : Int) (cx cy : BitVec 8) (pix : BitVec 32) (s : State) :
    AnswersWith .ok s (additive marks op d cx cy pix s) := by
  unfold additive
  dsimp only [visTestAndSet_eq]
  split_ifs <;> exact blendAnswer_answersWith _ _ _ _ rfl

/-- The reserved mode code is the only code without a mode (R71). -/
theorem modeOfCode?_eq_none_iff {m : BitVec 3} : modeOfCode? m = none ↔ m = 7#3 := by
  revert m
  decide

/-- The status a command is answered with: `SYM.SETMODE` refuses the reserved mode code (R94), and the compressor's
commands are refused in the wrong phase (R154). -/
def execStatus (i : Instr) (s : State) : Status :=
  match i with
  | .symSetmode m => if m = 7#3 then .errReserved else .ok
  | .lzwStart => if s.lzw.phase = .active then .errProtocol else .ok
  | .lzwPut _ | .lzwFinish => if s.lzw.phase = .idle then .errProtocol else .ok
  | .symSetdim .. | .symMap .. | .bldVclr | .bldLighten .. | .bldDarken .. | .qntQuant _ | .qntPalrd _ => .ok

theorem exec_symSetmode_answersWith (m : BitVec 3) (s : State) :
    ∃ t, exec (.symSetmode m) s = .next t ∧ AnswersWith (execStatus (.symSetmode m) s) s t := by
  cases h : modeOfCode? m with
  | none =>
    refine ⟨refuse Opcode.symSetmode.byte .errReserved s, by simp only [exec, execSymSetmode, h], ?_⟩
    rw [execStatus, if_pos (modeOfCode?_eq_none_iff.mp h)]
    exact refuse_answersWith _ _ _
  | some mode =>
    have hm : m ≠ 7#3 := fun hm => Option.some_ne_none mode (h.symm.trans (modeOfCode?_eq_none_iff.mpr hm))
    refine ⟨_, by simp only [exec, execSymSetmode, h]; rfl, ?_⟩
    rw [execStatus, if_neg hm]
    exact respond_answersWith _ _ _ rfl

theorem exec_symMap_answersWith (x y : BitVec 16) (s : State) :
    ∃ t, exec (.symMap x y) s = .next t ∧ AnswersWith .ok s t :=
  ⟨_, rfl, _, _, _, by rw [respondPoints_eq, respond_eq, List.append_assoc, List.singleton_append]⟩

/-- Every command completes in every state, and its result word has the command's status. -/
theorem exec_answersWith (i : Instr) (s : State) :
    ∃ t, exec i s = .next t ∧ AnswersWith (execStatus i s) s t := by
  cases i with
  | symSetdim wreq hreq => exact ⟨_, rfl, respond_answersWith _ _ _ rfl⟩
  | symSetmode m => exact exec_symSetmode_answersWith m s
  | symMap x y => exact exec_symMap_answersWith x y s
  | bldVclr => exact ⟨_, rfl, respond_answersWith _ _ _ (visClear_rsp s)⟩
  | bldLighten cx cy pix => exact ⟨_, rfl, additive_answersWith ..⟩
  | bldDarken cx cy pix => exact ⟨_, rfl, additive_answersWith ..⟩
  | qntQuant pix => exact ⟨_, rfl, respond_answersWith _ _ _ rfl⟩
  | qntPalrd idx => exact ⟨_, rfl, respond_answersWith _ _ _ rfl⟩
  | lzwStart =>
    cases h : s.lzw.phase with
    | active => exact ⟨_, exec_lzwStart_of_active h, by simp [execStatus, h, refuse_answersWith]⟩
    | idle => exact ⟨_, exec_lzwStart_of_idle h, by simp [execStatus, h, respond_answersWith]⟩
  | lzwPut k =>
    cases h : s.lzw.phase with
    | active => exact ⟨_, exec_lzwPut_of_active k h, by simp [execStatus, h, respond_answersWith]⟩
    | idle => exact ⟨_, exec_lzwPut_of_idle k h, by simp [execStatus, h, refuse_answersWith]⟩
  | lzwFinish =>
    cases h : s.lzw.phase with
    | active => exact ⟨_, exec_lzwFinish_of_active h, by simp [execStatus, h, respond_answersWith]⟩
    | idle => exact ⟨_, exec_lzwFinish_of_idle h, by simp [execStatus, h, refuse_answersWith]⟩

theorem execStatus_eq_errReserved_iff {i : Instr} {s : State} :
    execStatus i s = .errReserved ↔ i = .symSetmode 7#3 := by
  cases i <;> simp [execStatus, ite_eq_iff]

theorem execStatus_eq_errProtocol_iff {i : Instr} {s : State} :
    execStatus i s = .errProtocol ↔
      (i = .lzwStart ∧ s.lzw.phase = .active) ∨ ((∃ k, i = .lzwPut k) ∧ s.lzw.phase = .idle) ∨
        (i = .lzwFinish ∧ s.lzw.phase = .idle) := by
  cases i <;> simp [execStatus, ite_eq_iff]

/-! ### The status of a command word (R65, R66) -/

/-- The status a word is answered with: a word that decodes to nothing is refused with `ERR_RESERVED`. -/
def wordStatus (cw : CommandWord) (s : State) : Status :=
  match decode cw with
  | .ok i => execStatus i s
  | .error _ => .errReserved

theorem runWord_answersWith (cw : CommandWord) (s : State) :
    ∃ t, runWord cw s = .next t ∧ AnswersWith (wordStatus cw s) s t := by
  cases h : decode cw with
  | ok i => simpa only [runWord, wordStatus, h] using exec_answersWith i s
  | error r => exact ⟨_, by simp only [runWord, h]; rfl, by simpa only [wordStatus, h] using refuse_answersWith _ _ _⟩

@[simp] theorem rwStatus_resultWord (op : BitVec 8) (st : Status) (payload : BitVec 48) :
    rwStatus (resultWord op st payload) = statusField st := by
  rw [rwStatus, resultWord, BitVec.extractLsb'_append_eq_of_le (by decide),
    BitVec.extractLsb'_append_eq_of_le (by decide), BitVec.extractLsb'_append_eq_right]

theorem statusField_eq_one_iff {st : Status} : statusField st = 1#4 ↔ st = .errReserved := by
  cases st <;> simp [statusField]

theorem statusField_eq_two_iff {st : Status} : statusField st = 2#4 ↔ st = .errProtocol := by
  cases st <;> simp [statusField]

/-- The values 3 to 15 are never produced (R75). -/
theorem statusField_cases (st : Status) : statusField st = 0#4 ∨ statusField st = 1#4 ∨ statusField st = 2#4 := by
  cases st <;> simp [statusField]

/-- The first word that the run of a command word appends has the word's status. -/
theorem rwStatus_of_runWord {cw : CommandWord} {s t : State} {w : ResponseWord} {points : List ResponseWord}
    (hrun : runWord cw s = .next t) (hrsp : t.rsp = s.rsp ++ w :: points) :
    rwStatus w = statusField (wordStatus cw s) := by
  obtain ⟨t', hrun', op, payload, points', hrsp'⟩ := runWord_answersWith cw s
  obtain rfl : t' = t := Host.Outcome.next.inj (hrun'.symm.trans hrun)
  obtain ⟨rfl, -⟩ := List.cons.inj (List.append_cancel_left (hrsp.symm.trans hrsp'))
  exact rwStatus_resultWord op _ payload

/-! ### The words of each cause (R182, R184) -/

/-- A word decodes to nothing when its opcode byte is unassigned or a reserved bit of its row is set (R65, R66). -/
theorem decode_eq_error_iff {cw : CommandWord} :
    (∃ r, decode cw = .error r) ↔
      (∀ op : Opcode, op.byte ≠ opByte cw) ∨ ∃ op : Opcode, op.byte = opByte cw ∧ cw &&& op.mask ≠ op.pattern := by
  constructor
  · rintro ⟨r, herror⟩
    by_cases hassigned : ∃ op : Opcode, op.byte = opByte cw
    · obtain ⟨op, hop⟩ := hassigned
      refine .inr ⟨op, hop, fun hsel => ?_⟩
      cases herror.symm.trans (decode_eq_ok_iff.mpr ⟨op, hsel, rfl⟩)
    · exact .inl (not_exists.mp hassigned)
  · intro hcause
    cases hdec : decode cw with
    | error r => exact ⟨r, rfl⟩
    | ok i =>
      obtain ⟨op, hsel, -⟩ := decode_eq_ok_iff.mp hdec
      have hbyte : op.byte = opByte cw := (opByte_of_selects hsel).symm
      obtain hunassigned | ⟨op', hop', hbits⟩ := hcause
      · exact absurd hbyte (hunassigned op)
      · obtain rfl : op = op' := Opcode.byte_injective (hbyte.trans hop'.symm)
        exact absurd hsel hbits

/-- The words of a command: they select its row and hold its operands (R64, R67). -/
theorem decode_eq_ok_iff_selects {cw : CommandWord} {i : Instr} :
    decode cw = .ok i ↔ cw &&& i.opcode.mask = i.opcode.pattern ∧ i.opcode.assemble cw = i := by
  rw [decode_eq_ok_iff]
  constructor
  · rintro ⟨op, hsel, rfl⟩
    rw [op.assemble_opcode cw]
    exact ⟨hsel, rfl⟩
  · exact fun h => ⟨_, h⟩

/-- Three low bits that are all 1, beside the other bits of a word. -/
theorem eq_or_seven_of_extractLsb' {cw v : CommandWord} (hhigh : cw &&& 0xFFFFFFFFFFFFFFF8#64 = v)
    (hlow : cw.extractLsb' 0 3 = 7#3) : cw = v ||| 7#64 := by
  have hseven : cw &&& 7#64 = 7#64 := BitVec.eq_of_toNat_eq <|
    calc cw.toNat &&& (2 ^ 3 - 1) = cw.toNat % 2 ^ 3 := Nat.and_two_pow_sub_one_eq_mod _ 3
      _ = (cw.extractLsb' 0 3).toNat := (BitVec.extractLsb'_toNat 0 3 cw).symm
      _ = 7 := by rw [hlow]; rfl
  calc cw = cw &&& (0xFFFFFFFFFFFFFFF8#64 ||| 7#64) := (BitVec.and_allOnes (x := cw)).symm
    _ = v ||| 7#64 := by rw [BitVec.and_or_distrib_left, hhigh, hseven]

theorem decode_symSetmode_seven_iff {cw : CommandWord} :
    decode cw = .ok (.symSetmode 7#3) ↔ cw = 0x1100000000000007#64 := by
  constructor
  · intro h
    obtain ⟨hsel, hmode⟩ := decode_eq_ok_iff_selects.mp h
    exact eq_or_seven_of_extractLsb' hsel (Instr.symSetmode.inj hmode)
  · rintro rfl
    rfl

/-- The row of `LZW.START` compares every bit, so it has one word. -/
theorem decode_lzwStart_iff {cw : CommandWord} : decode cw = .ok .lzwStart ↔ cw = 0x4000000000000000#64 := by
  have hmask : cw &&& Opcode.lzwStart.mask = cw := BitVec.and_allOnes
  simp [decode_eq_ok_iff_selects, Instr.opcode, hmask, Opcode.pattern, Opcode.assemble]

theorem decode_lzwPut_iff {cw : CommandWord} :
    (∃ k, decode cw = .ok (.lzwPut k)) ↔ cw &&& 0xFFFFFFFFFFFFFF00#64 = 0x4100000000000000#64 := by
  constructor
  · rintro ⟨k, h⟩
    exact (decode_eq_ok_iff_selects.mp h).1
  · exact fun hsel => ⟨cw.extractLsb' 0 8, decode_eq_ok_iff_selects.mpr ⟨hsel, rfl⟩⟩

/-- The row of `LZW.FINISH` compares every bit, so it has one word. -/
theorem decode_lzwFinish_iff {cw : CommandWord} : decode cw = .ok .lzwFinish ↔ cw = 0x4200000000000000#64 := by
  have hmask : cw &&& Opcode.lzwFinish.mask = cw := BitVec.and_allOnes
  simp [decode_eq_ok_iff_selects, Instr.opcode, hmask, Opcode.pattern, Opcode.assemble]

theorem wordStatus_eq_errReserved_iff {cw : CommandWord} {s : State} :
    wordStatus cw s = .errReserved ↔ (∃ r, decode cw = .error r) ∨ decode cw = .ok (.symSetmode 7#3) := by
  cases h : decode cw with
  | ok i => simp [wordStatus, h, execStatus_eq_errReserved_iff]
  | error r => simp [wordStatus, h]

theorem wordStatus_eq_errProtocol_iff {cw : CommandWord} {s : State} :
    wordStatus cw s = .errProtocol ↔
      (decode cw = .ok .lzwStart ∧ s.lzw.phase = .active) ∨
        ((∃ k, decode cw = .ok (.lzwPut k)) ∧ s.lzw.phase = .idle) ∨
        (decode cw = .ok .lzwFinish ∧ s.lzw.phase = .idle) := by
  cases h : decode cw with
  | ok i => simp [wordStatus, h, execStatus_eq_errProtocol_iff]
  | error r => simp [wordStatus, h]

/-! ### The statement -/

/-- Settles O13: a result word has the status of its command word, and the words of each status are known. -/
theorem refusalCauses : Obligations.RefusalCauses := by
  intro cw s t w points hrun hrsp
  rw [rwStatus_of_runWord hrun hrsp]
  refine ⟨?_, ?_, statusField_cases _⟩
  · rw [statusField_eq_one_iff, wordStatus_eq_errReserved_iff, decode_eq_error_iff, decode_symSetmode_seven_iff,
      or_assoc, opByte]
  · rw [statusField_eq_two_iff, wordStatus_eq_errProtocol_iff, decode_lzwStart_iff, decode_lzwPut_iff,
      decode_lzwFinish_iff]

end Sys2Proof.Machine
end

section
/-! SUPPORT. The encoder (R62 to R65): the decoder reads back every operand field that `encode` lays out, and a row's
operand bits are all that its mask leaves open, so decoding and encoding are inverse to each other. -/

namespace Sys2Proof

/-! ### Decoding an encoded command (R64) -/

/-- The encoded word selects its command's row, whatever the command (R67). -/
theorem encode_selects (i : Instr) : encode i &&& i.opcode.mask = i.opcode.pattern := by
  cases i with
  | symSetdim wreq hreq => exact Laws.EncodeSelects.symSetdim wreq hreq
  | symSetmode m => exact Laws.EncodeSelects.symSetmode m
  | symMap x y => exact Laws.EncodeSelects.symMap x y
  | bldVclr => exact Laws.EncodeSelects.bldVclr
  | bldLighten cx cy pix => exact Laws.EncodeSelects.bldLighten cx cy pix
  | bldDarken cx cy pix => exact Laws.EncodeSelects.bldDarken cx cy pix
  | qntQuant pix => exact Laws.EncodeSelects.qntQuant pix
  | qntPalrd idx => exact Laws.EncodeSelects.qntPalrd idx
  | lzwStart => exact Laws.EncodeSelects.lzwStart
  | lzwPut sym => exact Laws.EncodeSelects.lzwPut sym
  | lzwFinish => exact Laws.EncodeSelects.lzwFinish

/-- A field below the opcode byte is a field of the operand bits. -/
theorem extractLsb'_encode (i : Instr) {start len : Nat} (h : start + len ≤ 56) :
    (encode i).extractLsb' start len = (operandBits i).extractLsb' start len :=
  BitVec.extractLsb'_append_eq_of_add_le h

/-- Two 16-bit fields side by side, read back. -/
theorem extractLsb'_pair (lo hi : BitVec 16) :
    (0#24 ++ hi ++ lo).extractLsb' 0 16 = lo ∧ (0#24 ++ hi ++ lo).extractLsb' 16 16 = hi := by
  refine ⟨BitVec.extractLsb'_append_eq_right, ?_⟩
  rw [BitVec.extractLsb'_append_eq_of_le le_rfl, BitVec.extractLsb'_append_eq_right]

/-- A cell and a packed pixel side by side, read back. -/
theorem extractLsb'_cell (cx cy : BitVec 8) (pix : BitVec 32) :
    (0#8 ++ cy ++ cx ++ pix).extractLsb' 32 8 = cx ∧ (0#8 ++ cy ++ cx ++ pix).extractLsb' 40 8 = cy ∧
      (0#8 ++ cy ++ cx ++ pix).extractLsb' 0 32 = pix := by
  refine ⟨?_, ?_, BitVec.extractLsb'_append_eq_right⟩
  · rw [BitVec.extractLsb'_append_eq_of_le le_rfl, BitVec.extractLsb'_append_eq_right]
  · rw [BitVec.extractLsb'_append_eq_of_le (by decide), BitVec.extractLsb'_append_eq_of_le le_rfl,
      BitVec.extractLsb'_append_eq_right]

/-- The operand fields of the encoded word are the command's own (R64). -/
theorem assemble_encode (i : Instr) : i.opcode.assemble (encode i) = i := by
  cases i with
  | bldVclr | lzwStart | lzwFinish => rfl
  | symSetdim wreq hreq =>
    obtain ⟨hw, hh⟩ := extractLsb'_pair wreq hreq
    simp [Instr.opcode, Opcode.assemble, extractLsb'_encode, operandBits, hw, hh]
  | symMap x y =>
    obtain ⟨hx, hy⟩ := extractLsb'_pair x y
    simp [Instr.opcode, Opcode.assemble, extractLsb'_encode, operandBits, hx, hy]
  | bldLighten cx cy pix | bldDarken cx cy pix =>
    obtain ⟨hx, hy, hp⟩ := extractLsb'_cell cx cy pix
    simp [Instr.opcode, Opcode.assemble, extractLsb'_encode, operandBits, hx, hy, hp]
  | symSetmode m =>
    have hm : (0#53 ++ m).extractLsb' 0 3 = m := BitVec.extractLsb'_append_eq_right
    simp [Instr.opcode, Opcode.assemble, extractLsb'_encode, operandBits, hm]
  | qntQuant pix =>
    have hp : (0#24 ++ pix).extractLsb' 0 32 = pix := BitVec.extractLsb'_append_eq_right
    simp [Instr.opcode, Opcode.assemble, extractLsb'_encode, operandBits, hp]
  | qntPalrd v | lzwPut v =>
    have hv : (0#48 ++ v).extractLsb' 0 8 = v := BitVec.extractLsb'_append_eq_right
    simp [Instr.opcode, Opcode.assemble, extractLsb'_encode, operandBits, hv]

/-- Settles O1: an encoded command selects its own row and holds its own operands. -/
theorem decodeOfEncode : Obligations.DecodeOfEncode := fun i =>
  Machine.decode_eq_ok_iff_selects.mpr ⟨encode_selects i, assemble_encode i⟩

/-! ### Encoding a decoded command (R65) -/

/-- How many low bits of a word are operand bits of the row (R64); the row compares all others. -/
def Opcode.operandWidth : Opcode → Nat
  | .symSetdim | .symMap | .qntQuant => 32
  | .symSetmode => 3
  | .bldLighten | .bldDarken => 48
  | .qntPalrd | .lzwPut => 8
  | .bldVclr | .lzwStart | .lzwFinish => 0

theorem Opcode.mask_eq (op : Opcode) : op.mask = BitVec.allOnes 64 <<< op.operandWidth := by
  cases op <;> decide

/-- The fields that a row reads are all of its operand bits: none is dropped. -/
theorem Opcode.operands_eq_of_assemble {op : Opcode} {cw cw' : CommandWord} (h : op.assemble cw = op.assemble cw') :
    cw.extractLsb' 0 op.operandWidth = cw'.extractLsb' 0 op.operandWidth := by
  have hjoin (v : CommandWord) : v.extractLsb' 16 16 ++ v.extractLsb' 0 16 = v.extractLsb' 0 32 :=
    BitVec.extractLsb'_append_extractLsb'_eq_extractLsb' rfl
  have hjoin3 (v : CommandWord) :
      v.extractLsb' 40 8 ++ (v.extractLsb' 32 8 ++ v.extractLsb' 0 32) = v.extractLsb' 0 48 := by
    rw [BitVec.extractLsb'_append_extractLsb'_eq_extractLsb' (by decide : 32 = 0 + 32)]
    exact BitVec.extractLsb'_append_extractLsb'_eq_extractLsb' (by decide : 40 = 0 + 40)
  cases op with
  | bldVclr | lzwStart | lzwFinish => simp only [operandWidth, BitVec.of_length_zero]
  | symSetdim =>
    obtain ⟨hw, hh⟩ := Instr.symSetdim.inj h
    rw [operandWidth, ← hjoin, ← hjoin, hw, hh]
  | symMap =>
    obtain ⟨hx, hy⟩ := Instr.symMap.inj h
    rw [operandWidth, ← hjoin, ← hjoin, hx, hy]
  | bldLighten =>
    obtain ⟨hx, hy, hp⟩ := Instr.bldLighten.inj h
    rw [operandWidth, ← hjoin3, ← hjoin3, hx, hy, hp]
  | bldDarken =>
    obtain ⟨hx, hy, hp⟩ := Instr.bldDarken.inj h
    rw [operandWidth, ← hjoin3, ← hjoin3, hx, hy, hp]
  | symSetmode => exact Instr.symSetmode.inj h
  | qntQuant => exact Instr.qntQuant.inj h
  | qntPalrd => exact Instr.qntPalrd.inj h
  | lzwPut => exact Instr.lzwPut.inj h

/-- A word is known by its `n` low bits and the bits above them. -/
theorem eq_of_low_of_high {n : Nat} {cw cw' : CommandWord} (hlow : cw.extractLsb' 0 n = cw'.extractLsb' 0 n)
    (hhigh : cw &&& BitVec.allOnes 64 <<< n = cw' &&& BitVec.allOnes 64 <<< n) : cw = cw' := by
  refine BitVec.eq_of_getLsbD_eq fun j hj => ?_
  rcases lt_or_ge j n with hjn | hjn
  · simpa [hjn] using congrArg (·.getLsbD j) hlow
  · have hnot : ¬ j < n := not_lt.mpr hjn
    have hmask : (BitVec.allOnes 64 <<< n).getLsbD j = true := by
      rw [BitVec.getLsbD_shiftLeft, BitVec.getLsbD_allOnes]
      simp [hj, hnot, (Nat.sub_le j n).trans_lt hj]
    have hbit := congrArg (·.getLsbD j) hhigh
    simpa only [BitVec.getLsbD_and, hmask, Bool.and_true] using hbit

/-- Only one word decodes to a command. -/
theorem eq_of_decode_eq {cw cw' : CommandWord} {i : Instr} (h : decode cw = .ok i) (h' : decode cw' = .ok i) :
    cw = cw' := by
  obtain ⟨hsel, hops⟩ := Machine.decode_eq_ok_iff_selects.mp h
  obtain ⟨hsel', hops'⟩ := Machine.decode_eq_ok_iff_selects.mp h'
  rw [Opcode.mask_eq] at hsel hsel'
  exact eq_of_low_of_high (Opcode.operands_eq_of_assemble (hops.trans hops'.symm)) (hsel.trans hsel'.symm)

/-- Settles O2: the word and the encoding of its command decode to the same command. -/
theorem encodeOfDecode : Obligations.EncodeOfDecode := fun _ i h => eq_of_decode_eq (decodeOfEncode i) h

/-- Settles O5. -/
theorem writtenWordsDecode : Obligations.WrittenWordsDecode := ⟨rfl, rfl, rfl, rfl, rfl⟩

end Sys2Proof
end

section
/-! SUPPORT. One step and one command word (R59, R65, R72, R181, R187): what a step does with each event, the shape of
every answer, and that a refusal changes nothing else. -/

namespace Sys2Proof.Machine

/-! ### Words in numbers (R72) -/

/-- Fields side by side, in numbers. -/
theorem toNat_append_add {n m : Nat} (x : BitVec n) (y : BitVec m) : (x ++ y).toNat = x.toNat * 2 ^ m + y.toNat := by
  rw [BitVec.toNat_append, ← Nat.shiftLeft_add_eq_or_of_lt y.isLt, Nat.shiftLeft_eq]

theorem resultWord_toNat (op : BitVec 8) (st : Status) (payload : BitVec 48) :
    (resultWord op st payload).toNat = op.toNat * 2 ^ 56 + (statusField st).toNat * 2 ^ 52 + payload.toNat := by
  simp only [resultWord, toNat_append_add, BitVec.toNat_ofNat]
  omega

@[simp] theorem rwOp_resultWord (op : BitVec 8) (st : Status) (payload : BitVec 48) :
    rwOp (resultWord op st payload) = op := by
  rw [rwOp, resultWord, BitVec.extractLsb'_append_eq_of_le (by decide), BitVec.extractLsb'_append_eq_of_le (by decide),
    BitVec.extractLsb'_append_eq_left]

@[simp] theorem rwKind_resultWord (op : BitVec 8) (st : Status) (payload : BitVec 48) :
    rwKind (resultWord op st payload) = 0#4 := by
  rw [rwKind, resultWord, BitVec.extractLsb'_append_eq_of_le (by decide), BitVec.extractLsb'_append_eq_right]

@[simp] theorem rwPayload_resultWord (op : BitVec 8) (st : Status) (payload : BitVec 48) :
    rwPayload (resultWord op st payload) = payload := by
  rw [rwPayload, resultWord, BitVec.extractLsb'_append_eq_right]

@[simp] theorem rwKind_pointWord (j n : Nat) (p : Point) : rwKind (pointWord j n p) = 1#4 := by
  rw [rwKind, pointWord, BitVec.extractLsb'_append_eq_of_le (by decide), BitVec.extractLsb'_append_eq_of_le (by decide),
    BitVec.extractLsb'_append_eq_of_le (by decide), BitVec.extractLsb'_append_eq_of_le (by decide),
    BitVec.extractLsb'_append_eq_of_le (by decide), BitVec.extractLsb'_append_eq_right]

/-! ### One step, event by event (R193, R200, R201) -/

theorem step_of_waiting {s : State} (h : s.inbox = []) : step s = .next s := by
  simp only [step, h]

theorem step_of_reset {s : State} {rest : List HostEvent} (h : s.inbox = .reset :: rest) :
    step s = .next (hostReset (s.setInbox rest)) := by
  simp only [step, h]

theorem step_of_command {s : State} {cw : CommandWord} {rest : List HostEvent} (h : s.inbox = .command cw :: rest) :
    step s = runWord cw (s.setInbox rest) := by
  simp only [step, h]

theorem runWord_of_ok {cw : CommandWord} {i : Instr} (h : decode cw = .ok i) (s : State) : runWord cw s = exec i s := by
  simp only [runWord, h]

theorem runWord_of_error {cw : CommandWord} {r : Reject} (h : decode cw = .error r) (s : State) :
    runWord cw s = .next (refuse (opByte cw) .errReserved s) := by
  simp only [runWord, h]

/-- All that a step can do: wait, take a reset, refuse a word, or execute a command. -/
theorem step_cases {s t : State} (h : step s = .next t) :
    t = s ∨ (∃ rest, t = hostReset (s.setInbox rest)) ∨
      (∃ op rest, t = refuse op .errReserved (s.setInbox rest)) ∨ ∃ i rest, exec i (s.setInbox rest) = .next t := by
  cases hin : s.inbox with
  | nil => exact .inl (Host.Outcome.next.inj ((step_of_waiting hin).symm.trans h)).symm
  | cons event rest =>
    refine .inr ?_
    cases event with
    | reset => exact .inl ⟨rest, (Host.Outcome.next.inj ((step_of_reset hin).symm.trans h)).symm⟩
    | command cw =>
      rw [step_of_command hin] at h
      refine .inr ?_
      cases hdec : decode cw with
      | ok i => exact .inr ⟨i, rest, (runWord_of_ok hdec _).symm.trans h⟩
      | error r => exact .inl ⟨_, rest, (Host.Outcome.next.inj ((runWord_of_error hdec _).symm.trans h)).symm⟩

/-- A command has one next state. -/
theorem exec_inj {i : Instr} {s t u : State} (h : exec i s = .next t) (h' : exec i s = .next u) : t = u :=
  Host.Outcome.next.inj (h.symm.trans h')

/-! ### The shape of every answer (R72, R74, R181) -/

/-- Behind the response words of `s`, `t` has one result word with this opcode byte and status, and point words only
behind 0x12; a refusal has payload 0 and is all that changed. -/
def AnswersAs (op : BitVec 8) (st : Status) (s t : State) : Prop :=
  ∃ (payload : BitVec 48) (points : List ResponseWord),
    t.rsp = s.rsp ++ resultWord op st payload :: points ∧ (op ≠ 0x12#8 → points = []) ∧
      (∀ p ∈ points, rwKind p = 1#4) ∧
      (st ≠ .ok → payload = 0#48 ∧ t = { s with rsp := s.rsp ++ [resultWord op st 0#48] })

theorem respond_answersAs (op : BitVec 8) (payload : BitVec 48) {s s' : State} (h : s'.rsp = s.rsp) :
    AnswersAs op .ok s (respond op .ok payload s') :=
  ⟨payload, [], by rw [respond_eq, h], fun _ => rfl, by simp, fun hne => absurd rfl hne⟩

theorem refuse_answersAs (op : BitVec 8) (st : Status) (s : State) : AnswersAs op st s (refuse op st s) :=
  ⟨0#48, [], rfl, fun _ => rfl, by simp, fun _ => ⟨rfl, refuse_eq op st s⟩⟩

theorem additive_answersAs (marks : Bool) (op : BitVec 8) (d : Int) (cx cy : BitVec 8) (pix : BitVec 32) (s : State) :
    AnswersAs op .ok s (additive marks op d cx cy pix s) := by
  unfold additive
  dsimp only [visTestAndSet_eq]
  split_ifs <;> exact respond_answersAs _ _ rfl

theorem exec_symSetmode_of_some {m : BitVec 3} {mode : MirrorMode} (h : modeOfCode? m = some mode) (s : State) :
    exec (.symSetmode m) s =
      .next (respond Opcode.symSetmode.byte .ok (lowPayload (modeCode mode))
        (s.setSym { s.sym with mode := mode })) := by
  simp only [exec, execSymSetmode, h]

theorem exec_symSetmode_of_none {m : BitVec 3} (h : modeOfCode? m = none) (s : State) :
    exec (.symSetmode m) s = .next (refuse Opcode.symSetmode.byte .errReserved s) := by
  simp only [exec, execSymSetmode, h]

theorem exec_symSetmode_answersAs (m : BitVec 3) (s : State) :
    ∃ t, exec (.symSetmode m) s = .next t ∧
      AnswersAs Opcode.symSetmode.byte (execStatus (.symSetmode m) s) s t := by
  cases h : modeOfCode? m with
  | none =>
    refine ⟨_, exec_symSetmode_of_none h s, ?_⟩
    rw [execStatus, if_pos (modeOfCode?_eq_none_iff.mp h)]
    exact refuse_answersAs _ _ _
  | some mode =>
    have hm : m ≠ 7#3 := modeOfCode?_eq_none_iff.not.mp (by rw [h]; exact Option.some_ne_none mode)
    refine ⟨_, exec_symSetmode_of_some h s, ?_⟩
    rw [execStatus, if_neg hm]
    exact respond_answersAs _ _ rfl

/-- `SYM.MAP` alone appends further words, the points of `mirror` (R74, R96). -/
theorem exec_symMap_answersAs (x y : BitVec 16) (s : State) :
    ∃ t, exec (.symMap x y) s = .next t ∧ AnswersAs Opcode.symMap.byte .ok s t := by
  refine ⟨_, rfl, _, _, by rw [respondPoints_eq, respond_eq, List.append_assoc, List.singleton_append],
    fun hne => absurd rfl hne, fun p hp => ?_, fun hne => absurd rfl hne⟩
  obtain ⟨pj, -, rfl⟩ := List.mem_map.mp hp
  exact rwKind_pointWord ..

/-- Every command in every state completes or is refused with nothing else changed (R181, R187). -/
theorem exec_answersAs (i : Instr) (s : State) :
    ∃ t, exec i s = .next t ∧ AnswersAs i.opcode.byte (execStatus i s) s t := by
  cases i with
  | symSetdim wreq hreq => exact ⟨_, rfl, respond_answersAs _ _ rfl⟩
  | symSetmode m => exact exec_symSetmode_answersAs m s
  | symMap x y => exact exec_symMap_answersAs x y s
  | bldVclr => exact ⟨_, rfl, respond_answersAs _ _ (visClear_rsp s)⟩
  | bldLighten cx cy pix => exact ⟨_, rfl, additive_answersAs ..⟩
  | bldDarken cx cy pix => exact ⟨_, rfl, additive_answersAs ..⟩
  | qntQuant pix => exact ⟨_, rfl, respond_answersAs _ _ rfl⟩
  | qntPalrd idx => exact ⟨_, rfl, respond_answersAs _ _ rfl⟩
  | lzwStart =>
    cases h : s.lzw.phase with
    | active => exact ⟨_, exec_lzwStart_of_active h, by simp [execStatus, h, Instr.opcode, refuse_answersAs]⟩
    | idle => exact ⟨_, exec_lzwStart_of_idle h, by simp [execStatus, h, Instr.opcode, respond_answersAs]⟩
  | lzwPut k =>
    cases h : s.lzw.phase with
    | active => exact ⟨_, exec_lzwPut_of_active k h, by simp [execStatus, h, Instr.opcode, respond_answersAs]⟩
    | idle => exact ⟨_, exec_lzwPut_of_idle k h, by simp [execStatus, h, Instr.opcode, refuse_answersAs]⟩
  | lzwFinish =>
    cases h : s.lzw.phase with
    | active => exact ⟨_, exec_lzwFinish_of_active h, by simp [execStatus, h, Instr.opcode, respond_answersAs]⟩
    | idle => exact ⟨_, exec_lzwFinish_of_idle h, by simp [execStatus, h, Instr.opcode, refuse_answersAs]⟩

theorem runWord_answersAs (cw : CommandWord) (s : State) :
    ∃ t, runWord cw s = .next t ∧ AnswersAs (opByte cw) (wordStatus cw s) s t := by
  cases h : decode cw with
  | ok i =>
    have hop : opByte cw = i.opcode.byte := opByte_of_selects (decode_eq_ok_iff_selects.mp h).1
    simpa only [runWord_of_ok h, wordStatus, h, hop] using exec_answersAs i s
  | error r => exact ⟨_, runWord_of_error h s, by simpa only [wordStatus, h] using refuse_answersAs _ _ _⟩

theorem statusField_eq_zero_iff {st : Status} : statusField st = 0#4 ↔ st = .ok := by
  cases st <;> simp [statusField]

/-! ### The statements -/

/-- Settles O10: the status decides between execution and a refusal, which is one response word and no more. -/
theorem everyWordHasOneOutcome : Obligations.EveryWordHasOneOutcome := by
  intro cw s
  obtain ⟨t, hrun, payload, points, hrsp, -, -, hrefused⟩ := runWord_answersAs cw s
  refine ⟨t, _, points, hrun, hrsp, ?_⟩
  rw [rwStatus_resultWord]
  refine (statusField_cases (wordStatus cw s)).imp_right fun hst => ⟨hst, ?_⟩
  have hne : wordStatus cw s ≠ .ok := by
    intro hok
    simp [hok, statusField] at hst
  obtain ⟨rfl, ht⟩ := hrefused hne
  exact ht

/-- Settles O12. -/
theorem oneResultWord : Obligations.OneResultWord := by
  intro cw s t hrun
  obtain ⟨t', hrun', payload, points, hrsp, hpoints, hkind, hrefused⟩ := runWord_answersAs cw s
  obtain rfl : t' = t := Host.Outcome.next.inj (hrun'.symm.trans hrun)
  refine ⟨_, points, hrsp, rwOp_resultWord .., rwKind_resultWord .., fun hst => ?_, fun hop => ?_, hkind⟩
  · rw [rwStatus_resultWord] at hst
    rw [rwPayload_resultWord]
    exact (hrefused (statusField_eq_zero_iff.not.mp hst)).1
  · rw [rwOp_resultWord] at hop
    exact hpoints hop

/-- Settles O4: the word is taken and `refuse` answers it. -/
theorem undecodableWordRefused : Obligations.UndecodableWordRefused := by
  intro s cw rest r hin hdec
  refine ⟨resultWord (opByte cw) .errReserved 0#48, by rw [step_of_command hin, runWord_of_error hdec]; rfl, ?_⟩
  have hcw := cw.isLt
  rw [resultWord_toNat, opByte, BitVec.extractLsb'_toNat, Nat.shiftRight_eq_div_pow, statusField, BitVec.toNat_ofNat,
    BitVec.toNat_ofNat]
  omega

/-- Settles O6. -/
theorem stepRunsDecoded : Obligations.StepRunsDecoded := by
  intro s cw rest i hin hdec
  rw [step_of_command hin, runWord_of_ok hdec]
  rfl

/-- Settles O7: the word presented is the next event, and what was presented before stays behind it. -/
theorem fetchWordRunsNext : Obligations.FetchWordRunsNext := by
  intro s w i hdec
  cases h : decode (tableWord 64 w) with
  | error r => simp [decodeTableWord, h] at hdec
  | ok j =>
    obtain rfl : j = i := by simpa [decodeTableWord, h] using hdec
    exact stepRunsDecoded (s.withFetchWord 64 w) _ s.inbox j rfl h

/-- Settles O8. -/
theorem resetEvent : Obligations.ResetEvent := fun _ _ hin =>
  ⟨_, step_of_reset hin, rfl, rfl, rfl, rfl, rfl, rfl, rfl, rfl⟩

/-- Settles O9. -/
theorem resetValues : Obligations.ResetValues := ⟨rfl, rfl, rfl, rfl, rfl, rfl, rfl, rfl, rfl⟩

/-- Settles O11: a word has an outcome in every state, and so have the two other events. -/
theorem everyStepHasNextState : Obligations.EveryStepHasNextState := by
  intro s
  cases hin : s.inbox with
  | nil => exact ⟨_, step_of_waiting hin⟩
  | cons event rest =>
    cases event with
    | reset => exact ⟨_, step_of_reset hin⟩
    | command cw =>
      obtain ⟨t, hrun, -⟩ := runWord_answersAs cw (s.setInbox rest)
      exact ⟨t, (step_of_command hin).trans hrun⟩

end Sys2Proof.Machine
end

section
/-! SUPPORT. The symmetry engine (R92 to R99): the clamp of an extent, the codes of the modes, the point words of
`SYM.MAP`, and which candidates `mirror` keeps, in which order. -/

namespace Sys2Proof.Machine

/-! ### `SYM.SETDIM` (R92, R93) -/

theorem clampExtent_toNat (req : Int) : ((clampExtent req).toNat : Int) = max 1 (min 256 req) := by
  rw [clampExtent, BitVec.toNat_ofInt]
  simp only [clamp, Config.canvasMin, Config.canvasMax]
  split_ifs <;> omega

/-- The clamped extents are those of a canvas (R34). -/
theorem clampExtent_bounds (req : Int) : 1 ≤ (clampExtent req).toNat ∧ (clampExtent req).toNat ≤ 256 := by
  have h := clampExtent_toNat req
  omega

theorem dimPayload_toNat (w h : BitVec 9) : (dimPayload w h).toNat = h.toNat * 2 ^ 16 + w.toNat := by
  simp only [dimPayload, toNat_append_add, BitVec.toNat_ofNat]
  omega

theorem exec_symSetdim_eq (wreq hreq : BitVec 16) (s : State) :
    exec (.symSetdim wreq hreq) s =
      let w := clampExtent (signedOperand wreq)
      let h := clampExtent (signedOperand hreq)
      .next { s with
        sym := { s.sym with w := w, h := h }
        rsp := s.rsp ++ [resultWord Opcode.symSetdim.byte .ok (dimPayload w h)] } := rfl

/-- Settles O22. -/
theorem setdimClamps : Obligations.SetdimClamps := by
  intro wreq hreq s
  refine ⟨_, _, _, exec_symSetdim_eq wreq hreq s, clampExtent_toNat _, clampExtent_toNat _, ?_⟩
  rw [resultWord_toNat, dimPayload_toNat]
  simp only [Opcode.byte, statusField, BitVec.toNat_ofNat]
  omega

/-! ### `SYM.SETMODE` (R94, R71) -/

theorem lowPayload_toNat {n : Nat} (hn : n ≤ 48) (v : BitVec n) : (lowPayload v).toNat = v.toNat :=
  BitVec.toNat_setWidth_of_le hn

/-- A code below 7 has the mode that stands at its place in the list, and is that mode's code. -/
theorem modeOfCode?_of_ne {m : BitVec 3} (h : m ≠ 7#3) :
    ∃ mode, modeOfCode? m = some mode ∧ modeCode mode = m ∧
      [MirrorMode.none, .horizontal, .vertical, .both, .central, .diagonal, .antidiagonal][m.toNat]? = some mode := by
  obtain ⟨mode, hmode⟩ := Option.ne_none_iff_exists'.mp (modeOfCode?_eq_none_iff.not.mpr h)
  obtain rfl : modeCode mode = m := eq_of_beq (List.find?_some (p := fun row => modeCode row == m) hmode)
  exact ⟨mode, hmode, rfl, by cases mode <;> rfl⟩

/-- Settles O23. -/
theorem setmodeSetsMode : Obligations.SetmodeSetsMode := by
  refine fun m s => ⟨fun hm => ?_, fun hm => ?_⟩
  · obtain ⟨mode, hmode, rfl, hplace⟩ := modeOfCode?_of_ne hm
    refine ⟨mode, _, exec_symSetmode_of_some hmode s, hplace, ?_⟩
    rw [resultWord_toNat, lowPayload_toNat (by decide)]
    rfl
  · exact exec_symSetmode_of_none (modeOfCode?_eq_none_iff.mpr hm) s

/-! ### `SYM.MAP` (R96, R74) -/

/-- No mode has more than four candidates (R97). -/
theorem length_mirror_le_four (w h : Int) (mode : MirrorMode) (p : Point) : (mirror w h mode p).length ≤ 4 := by
  refine (length_mirror_le w h mode p).trans ?_
  cases mode <;> simp [candidates]

/-- A coordinate of a point in a legal canvas fills its field. -/
theorem coordinate_toNat {v : Int} (h : 0 ≤ v) (h' : v < 256) : ((BitVec.ofInt 8 v).toNat : Int) = v := by
  rw [BitVec.toNat_ofInt]
  omega

theorem pointWord_toNat {j n : Nat} {p : Point} (hj : j < 8) (hx : 0 ≤ p.x) (hx' : p.x < 256) (hy : 0 ≤ p.y)
    (hy' : p.y < 256) :
    ((pointWord j n p).toNat : Int) =
      0x12 * 2 ^ 56 + 1 * 2 ^ 48 + (if j + 1 = n then 2 ^ 19 else 0) + j * 2 ^ 16 + p.y * 2 ^ 8 + p.x := by
  have hlast : (BitVec.ofBool (j + 1 == n)).toNat = if j + 1 = n then 1 else 0 := by
    rw [BitVec.toNat_ofBool, Bool.toNat, Bool.cond_eq_ite]
    simp only [beq_iff_eq]
  have hposition : (BitVec.ofNat 3 j).toNat = j := Nat.mod_eq_of_lt hj
  have hcx := coordinate_toNat hx hx'
  have hcy := coordinate_toNat hy hy'
  simp only [pointWord, toNat_append_add, hlast, hposition, Opcode.byte, BitVec.toNat_ofNat]
  split_ifs <;> omega

theorem exec_symMap_eq (x y : BitVec 16) (s : State) {ps : List Point}
    (hps : ps = mirror s.sym.w.toNat s.sym.h.toNat s.sym.mode ⟨x.toInt, y.toInt⟩) :
    exec (.symMap x y) s =
      .next { s with
        rsp := s.rsp ++ resultWord Opcode.symMap.byte .ok (lowPayload (BitVec.ofNat 3 ps.length)) ::
          ps.zipIdx.map fun pj => pointWord pj.2 ps.length pj.1 } := by
  subst hps
  change Host.Outcome.next (respondPoints _ (respond _ _ _ _)) = _
  rw [respondPoints_eq, respond_eq, List.append_assoc, List.singleton_append]
  rfl

/-- Settles O24: with legal extents every coordinate of a point fills its 8-bit field. -/
theorem mapAnswersMirror : Obligations.MapAnswersMirror := by
  intro x y s ⟨_, hw, _, hh⟩
  obtain ⟨ps, hps⟩ : ∃ ps, ps = mirror s.sym.w.toNat s.sym.h.toNat s.sym.mode ⟨x.toInt, y.toInt⟩ := ⟨_, rfl⟩
  have hfour : ps.length ≤ 4 := hps ▸ length_mirror_le_four ..
  refine ⟨ps, _, _, hps, exec_symMap_eq x y s hps, ?_, by simp, fun j p hp => ⟨pointWord j ps.length p, ?_, ?_⟩⟩
  · rw [resultWord_toNat, lowPayload_toNat (by decide)]
    simp only [Opcode.byte, statusField, BitVec.toNat_ofNat]
    omega
  · simp [hp]
  · have hj : j < ps.length := (List.getElem?_eq_some_iff.mp hp).1
    obtain ⟨⟨hx, hx', hy, hy'⟩, -⟩ := mirrorInsideCanvas _ _ _ _ _ (hps ▸ List.mem_of_getElem? hp)
    exact pointWord_toNat (by omega) hx (by omega) hy (by omega)

/-! ### The points of `mirror` and their order (R97 to R99) -/

/-- Settles O25. -/
theorem mirrorPoints : Obligations.MirrorPoints := by
  intro w h x y px py mode
  rw [mem_mirror, inCanvas_iff, and_comm]
  refine and_congr_right fun _ => ?_
  cases mode <;> simp [candidates]

theorem nodup_dedupFirst (ps : List Point) : (dedupFirst ps).Nodup := by
  induction ps with
  | nil => exact List.nodup_nil
  | cons p ps ih =>
    rw [dedupFirst_cons]
    exact List.nodup_cons.mpr ⟨by simp, ih.filter _⟩

/-- Whatever is left out of a sequence before, its points keep the order of their first occurrences. -/
theorem idxOf_dedupFirst_filter_sorted (keep : Point → Bool) (ps : List Point) :
    ((dedupFirst (ps.filter keep)).map fun q => ps.idxOf q).Pairwise (· < ·) := by
  induction ps with
  | nil => exact List.Pairwise.nil
  | cons p ps ih =>
    have hshift {l : List Point} (hl : l.Sublist (dedupFirst (ps.filter keep))) (hp : p ∉ l) :
        (l.map fun q => (p :: ps).idxOf q).Pairwise (· < ·) := by
      rw [List.pairwise_map] at ih ⊢
      refine (ih.sublist hl).imp_of_mem fun {a b} ha hb hab => ?_
      rw [List.idxOf_cons_ne _ (ne_of_mem_of_not_mem ha hp).symm,
        List.idxOf_cons_ne _ (ne_of_mem_of_not_mem hb hp).symm]
      omega
    by_cases hp : keep p = true
    · rw [List.filter_cons_of_pos hp, dedupFirst_cons, List.map_cons, List.pairwise_cons]
      have hnot : p ∉ (dedupFirst (ps.filter keep)).filter fun q => q != p := by simp
      refine ⟨fun n hn => ?_, hshift List.filter_sublist hnot⟩
      obtain ⟨q, hq, rfl⟩ := List.mem_map.mp hn
      rw [List.idxOf_cons_self, List.idxOf_cons_ne _ (ne_of_mem_of_not_mem hq hnot).symm]
      omega
    · rw [List.filter_cons_of_neg hp]
      exact hshift (List.Sublist.refl _) (by simp [hp])

/-- Settles O26. -/
theorem mirrorKeepsFirstOccurrences : Obligations.MirrorKeepsFirstOccurrences :=
  ⟨fun _ _ _ _ => ⟨rfl, rfl, rfl, rfl, rfl, rfl, rfl⟩, fun _ _ _ _ =>
    ⟨idxOf_dedupFirst_filter_sorted _ _, nodup_dedupFirst _⟩⟩

end Sys2Proof.Machine
end

section
/-! SUPPORT. The pixel blender (R111 to R115): the one outcome of `additive` for each reason to skip a cell, and its
answer in numbers. -/

namespace Sys2Proof.Machine

/-! ### `adjust` in numbers (R111) -/

theorem adjust_toNat (c : BitVec 8) (d : Int) : ((adjust c d).toNat : Int) = max 0 (min 255 (c.toNat + d)) := by
  rw [adjust, BitVec.toNat_ofInt, clamp]
  split_ifs <;> omega

theorem adjust_blendDelta_toNat (c : BitVec 8) : (adjust c Config.blendDelta).toNat = min 255 (c.toNat + 24) := by
  have h := adjust_toNat c Config.blendDelta
  rw [Config.blendDelta] at h ⊢
  omega

theorem adjust_neg_blendDelta_toNat (c : BitVec 8) : (adjust c (-Config.blendDelta)).toNat = c.toNat - 24 := by
  have h := adjust_toNat c (-Config.blendDelta)
  have hc := c.isLt
  rw [Config.blendDelta] at h ⊢
  omega

/-- Settles O36: a channel comes back unless the first of the two was clamped. -/
theorem lightenDarkenInverse : Obligations.LightenDarkenInverse := by
  intro c
  have hc := c.isLt
  have hup := adjust_toNat c 24
  have hdown := adjust_toNat c (-24)
  have hupDown := adjust_toNat (adjust c 24) (-24)
  have hdownUp := adjust_toNat (adjust c (-24)) 24
  rw [← BitVec.toNat_inj, ← BitVec.toNat_inj]
  omega

/-! ### The outcome of `additive` (R113) -/

/-- Why `additive` skips a cell: visited before, else transparent, else not at all. -/
def blendSkip (vis : List Cell) (c : Cell) (pix : BitVec 32) : Skip :=
  if c ∈ vis then .visited else if (unpackPixel pix).a = 0 then .transparent else .notSkipped

/-- The pixel of the answer: as it came when the cell is skipped. -/
def blendResult (d : Int) (pix : BitVec 32) : Skip → BitVec 32
  | .notSkipped => packPixel (blend (unpackPixel pix) d)
  | .visited => pix
  | .transparent => pix

theorem blendAnswer_eq (op : BitVec 8) (d : Int) (pix : BitVec 32) (skip : Skip) (s : State) :
    blendAnswer op d pix skip s =
      { s with rsp := s.rsp ++ [resultWord op .ok (blendPayload skip (blendResult d pix skip))] } := by
  cases skip <;> rfl

/-- At the decided `VIS_MARKS_TRANSPARENT` the cell is marked whatever is answered (R113). -/
theorem additive_eq (op : BitVec 8) (d : Int) (cx cy : BitVec 8) (pix : BitVec 32) (s : State) :
    additive Config.visMarksTransparent op d cx cy pix s =
      let skip := blendSkip s.vis (cellNumber cx cy) pix
      { s with
        vis := visInsert (cellNumber cx cy) s.vis
        rsp := s.rsp ++ [resultWord op .ok (blendPayload skip (blendResult d pix skip))] } := by
  simp only [additive, Config.visMarksTransparent, Bool.not_true, Bool.and_false, visTestAndSet_eq, visHas_iff,
    Bool.false_eq_true, if_false, blendAnswer_eq, blendSkip, beq_iff_eq]
  split_ifs <;> rfl

theorem exec_bldLighten_eq (cx cy : BitVec 8) (pix : BitVec 32) (s : State) :
    exec (.bldLighten cx cy pix) s =
      let skip := blendSkip s.vis (cellNumber cx cy) pix
      .next { s with
        vis := visInsert (cellNumber cx cy) s.vis
        rsp := s.rsp ++
          [resultWord Opcode.bldLighten.byte .ok (blendPayload skip (blendResult Config.blendDelta pix skip))] } :=
  congrArg Host.Outcome.next (additive_eq ..)

theorem exec_bldDarken_eq (cx cy : BitVec 8) (pix : BitVec 32) (s : State) :
    exec (.bldDarken cx cy pix) s =
      let skip := blendSkip s.vis (cellNumber cx cy) pix
      .next { s with
        vis := visInsert (cellNumber cx cy) s.vis
        rsp := s.rsp ++
          [resultWord Opcode.bldDarken.byte .ok (blendPayload skip (blendResult (-Config.blendDelta) pix skip))] } :=
  congrArg Host.Outcome.next (additive_eq ..)

/-! ### The answer in numbers (R73) -/

theorem unpackPixel_append (r g b a : BitVec 8) : unpackPixel (r ++ g ++ b ++ a) = ⟨r, g, b, a⟩ := by
  have hr : (r ++ g ++ b ++ a).extractLsb' 24 8 = r := by
    rw [BitVec.extractLsb'_append_eq_of_le (by decide), BitVec.extractLsb'_append_eq_of_le (by decide),
      BitVec.extractLsb'_append_eq_left]
  have hg : (r ++ g ++ b ++ a).extractLsb' 16 8 = g := by
    rw [BitVec.extractLsb'_append_eq_of_le (by decide), BitVec.extractLsb'_append_eq_of_le (by decide),
      BitVec.extractLsb'_append_eq_right]
  have hb : (r ++ g ++ b ++ a).extractLsb' 8 8 = b := by
    rw [BitVec.extractLsb'_append_eq_of_le (by decide), BitVec.extractLsb'_append_eq_right]
  rw [unpackPixel, hr, hg, hb, BitVec.extractLsb'_append_eq_right]

theorem packPixel_toNat (p : Pixel) :
    (packPixel p).toNat = p.r.toNat * 2 ^ 24 + p.g.toNat * 2 ^ 16 + p.b.toNat * 2 ^ 8 + p.a.toNat := by
  simp only [packPixel, toNat_append_add]
  omega

theorem blendPayload_toNat (skip : Skip) (pix : BitVec 32) :
    (blendPayload skip pix).toNat =
      (skipField skip).toNat * 2 ^ 33 + (appliedField skip).toNat * 2 ^ 32 + pix.toNat := by
  simp only [blendPayload, toNat_append_add, BitVec.toNat_ofNat]
  omega

theorem cellNumber_eq (cx cy : BitVec 8) : cellNumber cx cy = BitVec.ofNat 16 (cy.toNat * 256 + cx.toNat) := by
  rw [← cellNumber_toNat, BitVec.ofNat_toNat, BitVec.setWidth_eq]

/-- The word of a skipped cell has the pixel as it came, that of any other the adjusted channels and the old alpha. -/
theorem blendWord_toNat (op : BitVec 8) (d : Int) (cx cy r g b a : BitVec 8) (vis : List Cell) :
    let skip := blendSkip vis (cellNumber cx cy) (r ++ g ++ b ++ a)
    (resultWord op .ok (blendPayload skip (blendResult d (r ++ g ++ b ++ a) skip))).toNat =
      op.toNat * 2 ^ 56 +
        (if BitVec.ofNat 16 (cy.toNat * 256 + cx.toNat) ∈ vis then
          1 * 2 ^ 33 + r.toNat * 2 ^ 24 + g.toNat * 2 ^ 16 + b.toNat * 2 ^ 8 + a.toNat
        else if a.toNat = 0 then 2 * 2 ^ 33 + r.toNat * 2 ^ 24 + g.toNat * 2 ^ 16 + b.toNat * 2 ^ 8 + a.toNat
        else 2 ^ 32 + (adjust r d).toNat * 2 ^ 24 + (adjust g d).toNat * 2 ^ 16 + (adjust b d).toNat * 2 ^ 8
          + a.toNat) := by
  intro skip
  have hpix : (r ++ g ++ b ++ a).toNat = r.toNat * 2 ^ 24 + g.toNat * 2 ^ 16 + b.toNat * 2 ^ 8 + a.toNat :=
    packPixel_toNat ⟨r, g, b, a⟩
  rw [resultWord_toNat, blendPayload_toNat]
  by_cases hmem : BitVec.ofNat 16 (cy.toNat * 256 + cx.toNat) ∈ vis
  · have hskip : skip = .visited := if_pos (cellNumber_eq cx cy ▸ hmem)
    rw [if_pos hmem, hskip, blendResult, hpix]
    simp only [skipField, appliedField, statusField, BitVec.toNat_ofNat]
    omega
  · by_cases ha : a.toNat = 0
    · have hskip : skip = .transparent := by
        simp only [skip, blendSkip, cellNumber_eq, if_neg hmem, unpackPixel_append]
        exact if_pos (BitVec.eq_of_toNat_eq ha)
      rw [if_neg hmem, if_pos ha, hskip, blendResult, hpix]
      simp only [skipField, appliedField, statusField, BitVec.toNat_ofNat]
      omega
    · have hskip : skip = .notSkipped := by
        simp only [skip, blendSkip, cellNumber_eq, if_neg hmem, unpackPixel_append]
        exact if_neg (fun hzero => ha (congrArg BitVec.toNat hzero))
      rw [if_neg hmem, if_neg ha, hskip, blendResult, unpackPixel_append, packPixel_toNat]
      simp only [skipField, appliedField, statusField, BitVec.toNat_ofNat, blend]
      omega

theorem mem_visInsert_cellNumber (cx cy : BitVec 8) (vis : List Cell) (c : Cell) :
    c ∈ visInsert (cellNumber cx cy) vis ↔ c.toNat = cy.toNat * 256 + cx.toNat ∨ c ∈ vis := by
  rw [mem_visInsert, ← cellNumber_toNat, BitVec.toNat_inj]

/-! ### The statements -/

/-- Settles O32. -/
theorem vclrEmptiesVisited : Obligations.VclrEmptiesVisited := fun _ => rfl

/-- Settles O33. -/
theorem lightenOncePerCell : Obligations.LightenOncePerCell := by
  intro cx cy r g b a s
  refine ⟨_, _, exec_bldLighten_eq cx cy _ s, mem_visInsert_cellNumber cx cy s.vis, ?_⟩
  rw [blendWord_toNat]
  simp only [adjust_blendDelta_toNat, Opcode.byte, BitVec.toNat_ofNat]

/-- Settles O34. -/
theorem darkenOncePerCell : Obligations.DarkenOncePerCell := by
  intro cx cy r g b a s
  refine ⟨_, _, exec_bldDarken_eq cx cy _ s, mem_visInsert_cellNumber cx cy s.vis, ?_⟩
  rw [blendWord_toNat]
  simp only [adjust_neg_blendDelta_toNat, Opcode.byte, BitVec.toNat_ofNat]

/-- A cell in the set is answered `SKIP` 1 and the pixel as it came (R113). -/
theorem blendWord_of_visited (op : BitVec 8) (d : Int) {vis : List Cell} {c : Cell} (h : c ∈ vis) (pix : BitVec 32) :
    (resultWord op .ok (blendPayload (blendSkip vis c pix) (blendResult d pix (blendSkip vis c pix)))).toNat =
      op.toNat * 2 ^ 56 + 1 * 2 ^ 33 + pix.toNat := by
  rw [resultWord_toNat, blendPayload_toNat, blendSkip, if_pos h]
  simp only [blendResult, skipField, appliedField, statusField, BitVec.toNat_ofNat]
  omega

end Sys2Proof.Machine
end

section
/-! SUPPORT. The quantizer's commands (R126, R136) in numbers, and the palette entry by entry (R41, R42, R45). -/

namespace Sys2Proof.Machine

/-! ### `QNT.QUANT` and `QNT.PALRD` (R126, R136) -/

theorem exec_qntQuant_eq (pix : BitVec 32) (s : State) :
    exec (.qntQuant pix) s =
      .next { s with
        rsp := s.rsp ++ [resultWord Opcode.qntQuant.byte .ok
          (lowPayload (quantize .inputExact s.pal (unpackPixel pix)))] } := rfl

theorem exec_qntPalrd_eq (idx : BitVec 8) (s : State) :
    exec (.qntPalrd idx) s =
      .next { s with
        rsp := s.rsp ++ [resultWord Opcode.qntPalrd.byte .ok (lowPayload (packRgb (palRead s.pal idx)))] } := rfl

/-- Settles O37. -/
theorem quantAnswersIndex : Obligations.QuantAnswersIndex := by
  intro r g b a s
  refine ⟨_, exec_qntQuant_eq _ s, ?_⟩
  rw [resultWord_toNat, unpackPixel_append, lowPayload_toNat (by decide)]
  rfl

theorem packRgb_toNat (c : Rgb) : (packRgb c).toNat = c.r.toNat * 2 ^ 16 + c.g.toNat * 2 ^ 8 + c.b.toNat := by
  simp only [packRgb, toNat_append_add]
  omega

/-- Settles O38. -/
theorem palrdAnswersEntry : Obligations.PalrdAnswersEntry := by
  intro idx s
  refine ⟨_, exec_qntPalrd_eq idx s, ?_⟩
  rw [resultWord_toNat, lowPayload_toNat (by decide), packRgb_toNat]
  simp only [Opcode.byte, statusField, BitVec.toNat_ofNat]
  omega

/-! ### The palette (R41, R42) -/

theorem palRead_palette_ofNat {i : Nat} (hi : i < 256) :
    palRead Config.palette (BitVec.ofNat 8 i) = Config.paletteEntry i := by
  rw [palRead_palette, BitVec.toNat_ofNat, Nat.mod_eq_of_lt hi]

theorem palRead_one : palRead Config.palette 1#8 = ⟨0, 0, 0⟩ := by
  rw [palRead_palette]
  rfl

theorem palRead_last_cube : palRead Config.palette 216#8 = ⟨255, 255, 255⟩ := by
  rw [palRead_palette]
  rfl

/-- Settles O39: each range of indices by what its entries are made of. -/
theorem paletteContents : Obligations.PaletteContents := by
  refine ⟨?_, fun i hi j hj k hk => ?_, fun n hn => ?_, fun i hi hi' => ?_⟩
  · rw [palRead_palette_black (by decide), palRead_one]
  · have hindex : 1 + 36 * i + 6 * j + k = cubeIndex i j k := by
      simp only [cubeIndex]
      omega
    have hle := cubeIndex_le (l := i) (m := j) (n := k) (by omega) (by omega) (by omega)
    rw [hindex, palRead_palette_ofNat (by omega), paletteEntry_cubeIndex (by omega) (by omega) (by omega)]
    rfl
  · rw [palRead_palette_ofNat (by omega), paletteEntry_ramp (by omega) (by omega), Nat.add_sub_cancel_left]
    rfl
  · rw [palRead_palette_black (by rw [BitVec.toNat_ofNat]; omega), palRead_one]

/-! ### Colours the palette holds twice (R45) -/

/-- The indices whose colour stands at no lower index but 0. -/
def FirstOfColour (i : BitVec 8) : Prop := 1 ≤ i.toNat ∧ i.toNat ≤ 239 ∧ i.toNat ≠ 217

theorem firstOfColour_or_duplicate (i : BitVec 8) :
    FirstOfColour i ∨ (i.toNat = 0 ∨ i.toNat = 217 ∨ 241 ≤ i.toNat) ∨ i.toNat = 240 := by
  simp only [FirstOfColour]
  omega

theorem FirstOfColour.eq_of_palRead_eq {i j : BitVec 8} (hi : FirstOfColour i) (hj : FirstOfColour j)
    (h : palRead Config.palette i = palRead Config.palette j) : i = j := by
  obtain ⟨hi, hi', hne⟩ := hi
  obtain ⟨hj, hj', hne'⟩ := hj
  exact BitVec.eq_of_toNat_eq
    (le_antisymm (palRead_palette_first hi' hne hj h.symm) (palRead_palette_first hj' hne' hi h))

/-- The cube's ends are the first of their colours. -/
theorem firstOfColour_cube_ends : FirstOfColour 1#8 ∧ FirstOfColour 216#8 := by
  simp [FirstOfColour]

theorem palRead_eq_black_iff (i : BitVec 8) :
    palRead Config.palette i = ⟨0, 0, 0⟩ ↔ i.toNat = 0 ∨ i.toNat = 1 ∨ i.toNat = 217 ∨ 241 ≤ i.toNat := by
  rw [← palRead_one]
  obtain hfirst | hblack | hwhite := firstOfColour_or_duplicate i
  · have ⟨hi, hi', hne⟩ := hfirst
    refine ⟨fun h => ?_, fun h => ?_⟩
    · exact .inr (.inl (congrArg BitVec.toNat (FirstOfColour.eq_of_palRead_eq hfirst firstOfColour_cube_ends.1 h)))
    · exact congrArg _ (BitVec.eq_of_toNat_eq (show i.toNat = 1 by omega))
  · exact iff_of_true (palRead_palette_black hblack) (by omega)
  · rw [palRead_palette_white hwhite, palRead_last_cube, palRead_one]
    exact iff_of_false (by decide) (by omega)

theorem palRead_eq_white_iff (i : BitVec 8) :
    palRead Config.palette i = ⟨255, 255, 255⟩ ↔ i.toNat = 216 ∨ i.toNat = 240 := by
  rw [← palRead_last_cube]
  obtain hfirst | hblack | hwhite := firstOfColour_or_duplicate i
  · have ⟨hi, hi', hne⟩ := hfirst
    refine ⟨fun h => ?_, fun h => ?_⟩
    · exact .inl (congrArg BitVec.toNat (FirstOfColour.eq_of_palRead_eq hfirst firstOfColour_cube_ends.2 h))
    · exact congrArg _ (BitVec.eq_of_toNat_eq (show i.toNat = 216 by omega))
  · rw [palRead_palette_black hblack, palRead_last_cube, palRead_one]
    exact iff_of_false (by decide) (by omega)
  · exact iff_of_true (palRead_palette_white hwhite) (.inr hwhite)

/-- Settles O40: two indices of one colour are equal, or one of them holds black or white. -/
theorem paletteDuplicates : Obligations.PaletteDuplicates := by
  refine fun i j => ⟨palRead_eq_black_iff i, palRead_eq_white_iff i, fun h => ?_⟩
  have hends {k : BitVec 8} (hk : (k.toNat = 0 ∨ k.toNat = 217 ∨ 241 ≤ k.toNat) ∨ k.toNat = 240) :
      palRead Config.palette k = ⟨0, 0, 0⟩ ∨ palRead Config.palette k = ⟨255, 255, 255⟩ := by
    rw [palRead_eq_black_iff, palRead_eq_white_iff]
    omega
  obtain hi | hi := firstOfColour_or_duplicate i
  · obtain hj | hj := firstOfColour_or_duplicate j
    · exact .inl (FirstOfColour.eq_of_palRead_eq hi hj h)
    · rw [h]
      exact .inr (hends hj)
  · exact .inr (hends hi)

end Sys2Proof.Machine
end

section
/-! SUPPORT. The byte port (R150, R151) in closed form: the beats of a run of bytes and the bytes left in the open
sub-block, what `emit` writes, and the closing emission with its flush as one run of bytes (R160). -/

namespace Sys2Proof.Machine

/-! ### Runs of bytes (R151) -/

/-- `BCNT` after one byte. -/
def nextCount (n : BitVec 8) (fin : Bool) : BitVec 8 :=
  if subBlockEnds (n.toNat + 1) fin then 0 else BitVec.ofNat 8 (n.toNat + 1)

/-- `BCNT` after a run of bytes. -/
def countAfter (n : BitVec 8) : List (BitVec 8 × Bool) → BitVec 8
  | [] => n
  | bf :: l => countAfter (nextCount n bf.2) l

/-- The beats of a run of bytes that starts with `BCNT` = `n`. -/
def beatsOf (n : BitVec 8) : List (BitVec 8 × Bool) → List Beat
  | [] => []
  | bf :: l => beat bf.1 (subBlockEnds (n.toNat + 1) bf.2) bf.2 :: beatsOf (nextCount n bf.2) l

theorem outbytes_eq (l : List (BitVec 8 × Bool)) (s : State) :
    outbytes l s =
      { s with
        out := s.out ++ beatsOf s.lzw.bcnt l
        lzw := { s.lzw with bcnt := countAfter s.lzw.bcnt l } } := by
  induction l generalizing s with
  | nil => simp [outbytes, beatsOf, countAfter]
  | cons bf l ih =>
    have htail := ih (outbyte bf.1 bf.2 s)
    rw [outbyte_eq] at htail
    simp only [outbytes, List.foldl_cons, outbyte_eq] at htail ⊢
    rw [htail]
    simp [beatsOf, countAfter, nextCount]

theorem countAfter_append (n : BitVec 8) (l l' : List (BitVec 8 × Bool)) :
    countAfter n (l ++ l') = countAfter (countAfter n l) l' := by
  induction l generalizing n with
  | nil => rfl
  | cons bf l ih => exact ih _

theorem beatsOf_append (n : BitVec 8) (l l' : List (BitVec 8 × Bool)) :
    beatsOf n (l ++ l') = beatsOf n l ++ beatsOf (countAfter n l) l' := by
  induction l generalizing n with
  | nil => rfl
  | cons bf l ih => exact congrArg (_ :: ·) (ih _)

@[simp] theorem length_beatsOf (n : BitVec 8) (l : List (BitVec 8 × Bool)) : (beatsOf n l).length = l.length := by
  induction l generalizing n with
  | nil => rfl
  | cons bf l ih => exact congrArg (· + 1) (ih _)

theorem map_beatData_beatsOf (n : BitVec 8) (l : List (BitVec 8 × Bool)) :
    (beatsOf n l).map beatData = l.map fun bf => bf.1.toNat := by
  induction l generalizing n with
  | nil => rfl
  | cons bf l ih => rw [beatsOf, List.map_cons, List.map_cons, ih, beatData, beat_data]

theorem beatLast_beat (b : BitVec 8) (sb fin : Bool) : beatLast (beat b sb fin) = fin := by
  simp [beatLast]

theorem beatSbLast_beat (b : BitVec 8) (sb fin : Bool) : beatSbLast (beat b sb fin) = sb := by
  simp [beatSbLast]

/-- A run without an end of the stream marks no beat as the last. -/
theorem beatLast_of_mem_beatsOf {l : List (BitVec 8 × Bool)} (hl : ∀ bf ∈ l, bf.2 = false) (n : BitVec 8) :
    ∀ b ∈ beatsOf n l, beatLast b = false := by
  induction l generalizing n with
  | nil => simp [beatsOf]
  | cons bf l ih =>
    obtain ⟨hbf, hl⟩ := List.forall_mem_cons.mp hl
    exact List.forall_mem_cons.mpr ⟨by rw [beatLast_beat, hbf], ih hl _⟩

/-! ### Sub-blocks (R82) -/

theorem scanSubBlocks_append (n : Nat) (bs bs' : List Beat) :
    scanSubBlocks n (bs ++ bs') = (scanSubBlocks n bs).bind fun m => scanSubBlocks m bs' := by
  induction bs generalizing n with
  | nil => rfl
  | cons b bs ih =>
    simp only [List.cons_append, scanSubBlocks, ih]
    split_ifs <;> rfl

theorem nextCount_toNat {n : BitVec 8} (hn : n.toNat ≤ 254) (fin : Bool) :
    (nextCount n fin).toNat = if n.toNat + 1 = 255 ∨ fin = true then 0 else n.toNat + 1 := by
  simp only [nextCount, subBlockEnds, Config.subblockMax, Bool.or_eq_true, beq_iff_eq]
  split_ifs
  · rfl
  · rw [BitVec.toNat_ofNat]
    omega

theorem nextCount_le {n : BitVec 8} (hn : n.toNat ≤ 254) (fin : Bool) : (nextCount n fin).toNat ≤ 254 := by
  rw [nextCount_toNat hn]
  split_ifs <;> omega

theorem countAfter_le {n : BitVec 8} (hn : n.toNat ≤ 254) (l : List (BitVec 8 × Bool)) :
    (countAfter n l).toNat ≤ 254 := by
  induction l generalizing n with
  | nil => exact hn
  | cons bf l ih => exact ih (nextCount_le hn _)

theorem countAfter_of_last (n : BitVec 8) (l : List (BitVec 8 × Bool)) (b : BitVec 8) :
    countAfter n (l ++ [(b, true)]) = 0 := by
  rw [countAfter_append]
  exact if_pos (subBlockEnds_of_last _)

/-- The byte port cuts its output as R82 says, and `BCNT` counts the open sub-block. -/
theorem scanSubBlocks_beatsOf {n : BitVec 8} (hn : n.toNat ≤ 254) (l : List (BitVec 8 × Bool)) :
    scanSubBlocks n.toNat (beatsOf n l) = some (countAfter n l).toNat := by
  induction l generalizing n with
  | nil => rfl
  | cons bf l ih =>
    have htail := ih (nextCount_le hn bf.2)
    rw [nextCount_toNat hn] at htail
    have hends : subBlockEnds (n.toNat + 1) bf.2 = true ↔ n.toNat + 1 = 255 ∨ bf.2 = true := by
      simp [subBlockEnds, Config.subblockMax]
    rw [beatsOf, countAfter, scanSubBlocks, beatSbLast_beat, beatLast_beat]
    by_cases hclose : n.toNat + 1 = 255 ∨ bf.2 = true
    · have hcut : n.toNat + 1 = 255 ∨ (n.toNat + 1 < 255 ∧ bf.2 = true) := by
        rcases eq_or_ne (n.toNat + 1) 255 with hfull | hopen
        · exact .inl hfull
        · exact .inr ⟨by omega, hclose.resolve_left hopen⟩
      rw [if_pos (hends.mpr hclose), if_pos hcut]
      rwa [if_pos hclose] at htail
    · obtain ⟨hopen, hfin⟩ := not_or.mp hclose
      have hcut : n.toNat + 1 < 255 ∧ (!bf.2) = true := ⟨by omega, by simpa using hfin⟩
      rw [if_neg (hends.not.mpr hclose), if_pos hcut]
      rwa [if_neg hclose] at htail

/-! ### `emit` (R150) -/

/-- The pending bits with a code's bits above them. -/
def emitTotal (l : LzwRegs) (code : Code) : Nat := l.acc.toNat + code.toNat * 2 ^ l.nbits.toNat

/-- How many bits those are. -/
def emitBits (l : LzwRegs) : Nat := l.nbits.toNat + l.width.toNat

/-- The bytes that `emit` outputs. -/
def emitBytes (l : LzwRegs) (code : Code) (closing : Bool) : List (BitVec 8 × Bool) :=
  drainBytes closing (emitBits l / 8) (emitTotal l code) (emitBits l)

/-- The LZW elements after `emit`: the rest of the bits is pending. -/
def emitLzw (l : LzwRegs) (code : Code) (closing : Bool) : LzwRegs :=
  { l with
    acc := BitVec.ofNat 19 (emitTotal l code / 256 ^ (emitBits l / 8))
    nbits := BitVec.ofNat 5 (emitBits l % 8)
    bcnt := countAfter l.bcnt (emitBytes l code closing) }

theorem emit_eq (code : Code) (closing : Bool) (s : State) :
    emit code closing s =
      { s with
        out := s.out ++ beatsOf s.lzw.bcnt (emitBytes s.lzw code closing)
        codes := s.codes ++ [(code, s.lzw.width)]
        lzw := emitLzw s.lzw code closing } := by
  have hrest : emitBits s.lzw - 8 * (emitBits s.lzw / 8) = emitBits s.lzw % 8 := by omega
  have hdrain := drain_eq_outbytes closing (emitBits s.lzw / 8) (emitTotal s.lzw code) (emitBits s.lzw)
    (s.setCodes (s.codes ++ [(code, s.lzw.width)]))
  rw [hrest, outbytes_eq] at hdrain
  exact hdrain

@[simp] theorem emit_lzw (code : Code) (closing : Bool) (s : State) :
    (emit code closing s).lzw = emitLzw s.lzw code closing := by
  rw [emit_eq]

@[simp] theorem emitLzw_nextCode (l : LzwRegs) (code : Code) (closing : Bool) :
    (emitLzw l code closing).nextCode = l.nextCode := rfl

@[simp] theorem emitLzw_width (l : LzwRegs) (code : Code) (closing : Bool) :
    (emitLzw l code closing).width = l.width := rfl

theorem emitLzw_nbits_toNat (l : LzwRegs) (code : Code) (closing : Bool) :
    (emitLzw l code closing).nbits.toNat = emitBits l % 8 :=
  Nat.mod_eq_of_lt (by omega)

/-- Behind a code, the bits it left pending and the next code's own. -/
theorem emitBits_emitLzw (l : LzwRegs) (code : Code) (closing : Bool) :
    emitBits (emitLzw l code closing) = emitBits l % 8 + l.width.toNat := by
  rw [emitBits, emitLzw_nbits_toNat, emitLzw_width]

@[simp] theorem length_emitBytes (l : LzwRegs) (code : Code) (closing : Bool) :
    (emitBytes l code closing).length = emitBits l / 8 := by
  simp [emitBytes, drainBytes]

/-- A code that does not close the stream marks no byte as the last. -/
theorem emitBytes_not_last (l : LzwRegs) (code : Code) : ∀ bf ∈ emitBytes l code false, bf.2 = false := by
  simp [emitBytes, drainBytes]

/-! ### The pending bits (R29, R33) -/

/-- What holds of the pending bits and the open sub-block between commands while an encode is open (R29, R33(f)). -/
structure PendingWf (l : LzwRegs) : Prop where
  pending_bits : l.nbits.toNat ≤ 7
  acc_bound : l.acc.toNat < 2 ^ l.nbits.toNat
  bcnt_bound : l.bcnt.toNat ≤ 254

theorem LzwWf.pending {l : LzwRegs} (h : LzwWf l) : PendingWf l := ⟨h.pending_bits, h.acc_bound, h.bcnt_bound⟩

/-- A value of `n` bits with one of `m` bits above it has `n + m` bits. -/
theorem add_mul_two_pow_lt {a c n m : Nat} (ha : a < 2 ^ n) (hc : c < 2 ^ m) : a + c * 2 ^ n < 2 ^ (n + m) :=
  calc a + c * 2 ^ n < 2 ^ n + c * 2 ^ n := by omega
    _ = (c + 1) * 2 ^ n := by ring
    _ ≤ 2 ^ m * 2 ^ n := Nat.mul_le_mul_right _ hc
    _ = 2 ^ (n + m) := by ring

theorem two_pow_eq_bytes (n : Nat) : 2 ^ n = 256 ^ (n / 8) * 2 ^ (n % 8) := by
  rw [show 256 = 2 ^ 8 from rfl, ← Nat.pow_mul, ← Nat.pow_add, Nat.div_add_mod]

theorem emitTotal_lt {l : LzwRegs} (h : PendingWf l) {code : Code} (hfit : code.toNat < 2 ^ l.width.toNat) :
    emitTotal l code < 2 ^ emitBits l :=
  add_mul_two_pow_lt h.acc_bound hfit

theorem emitTotal_div_lt {l : LzwRegs} (h : PendingWf l) {code : Code} (hfit : code.toNat < 2 ^ l.width.toNat) :
    emitTotal l code / 256 ^ (emitBits l / 8) < 2 ^ (emitBits l % 8) := by
  refine Nat.div_lt_of_lt_mul ?_
  rw [← two_pow_eq_bytes]
  exact emitTotal_lt h hfit

/-- The accumulator loses no bit: fewer than 8 are left of the code (R29). -/
theorem emitLzw_acc_toNat {l : LzwRegs} (h : PendingWf l) {code : Code} (hfit : code.toNat < 2 ^ l.width.toNat)
    (closing : Bool) : (emitLzw l code closing).acc.toNat = emitTotal l code / 256 ^ (emitBits l / 8) := by
  have hlt : 2 ^ (emitBits l % 8) < 2 ^ 19 := Nat.pow_lt_pow_right (by decide) (by omega)
  exact Nat.mod_eq_of_lt ((emitTotal_div_lt h hfit).trans hlt)

theorem emitLzw_pendingWf {l : LzwRegs} (h : PendingWf l) {code : Code} (hfit : code.toNat < 2 ^ l.width.toNat)
    (closing : Bool) : PendingWf (emitLzw l code closing) where
  pending_bits := by
    rw [emitLzw_nbits_toNat]
    omega
  acc_bound := by
    rw [emitLzw_nbits_toNat, emitLzw_acc_toNat h hfit]
    exact emitTotal_div_lt h hfit
  bcnt_bound := countAfter_le h.bcnt_bound _

/-! ### The closing emission (R160) -/

/-- The `n` bytes of a value, the last of them the last of the stream. -/
def closingBytes (total n : Nat) : List (BitVec 8 × Bool) :=
  (List.range n).map fun j => (BitVec.ofNat 8 (total / 256 ^ j), j + 1 == n)

@[simp] theorem length_closingBytes (total n : Nat) : (closingBytes total n).length = n := by
  simp [closingBytes]

theorem closingBytes_succ (total n : Nat) :
    closingBytes total (n + 1) =
      ((List.range n).map fun j => (BitVec.ofNat 8 (total / 256 ^ j), false)) ++
        [(BitVec.ofNat 8 (total / 256 ^ n), true)] := by
  rw [closingBytes, List.range_succ, List.map_append]
  congr 1
  · refine List.map_congr_left fun j hj => ?_
    have hne : j ≠ n := (List.mem_range.mp hj).ne
    simp [hne]
  · simp

/-- With a whole number of bytes to output, `emit` marks the last of them. -/
theorem emitBytes_closing_of_whole {l : LzwRegs} (h : emitBits l % 8 = 0) (code : Code) :
    emitBytes l code true = closingBytes (emitTotal l code) ((emitBits l + 7) / 8) := by
  have hn : (emitBits l + 7) / 8 = emitBits l / 8 := by omega
  rw [emitBytes, drainBytes, closingBytes, hn]
  refine List.map_congr_left fun j hj => ?_
  have hlt := List.mem_range.mp hj
  simp only [Bool.true_and, Prod.mk.injEq, true_and]
  rw [Bool.eq_iff_iff, beq_iff_eq, beq_iff_eq]
  omega

/-- With a partial byte left, `emit` marks none and the flush outputs the last byte. -/
theorem emitBytes_closing_of_partial {l : LzwRegs} (h : emitBits l % 8 ≠ 0) (code : Code) :
    emitBytes l code true ++ [(BitVec.ofNat 8 (emitTotal l code / 256 ^ (emitBits l / 8)), true)] =
      closingBytes (emitTotal l code) ((emitBits l + 7) / 8) := by
  have hn : (emitBits l + 7) / 8 = emitBits l / 8 + 1 := by omega
  rw [hn, closingBytes_succ, emitBytes, drainBytes]
  congr 1
  refine List.map_congr_left fun j hj => ?_
  have hlt := List.mem_range.mp hj
  have hne : emitBits l - 8 * (j + 1) ≠ 0 := by omega
  simp [hne]

theorem flush_of_empty {s : State} (h : s.lzw.nbits = 0) : flush s = s := if_pos h

/-- END and the flush together output all bits, zero filled, in one run whose last byte is the last of the stream. -/
theorem flush_emit_closing (code : Code) (s : State) :
    ∃ l, flush (emit code true s) =
      { s with
        out := s.out ++ beatsOf s.lzw.bcnt (closingBytes (emitTotal s.lzw code) ((emitBits s.lzw + 7) / 8))
        codes := s.codes ++ [(code, s.lzw.width)]
        lzw := l } := by
  by_cases hwhole : emitBits s.lzw % 8 = 0
  · have hnone : (emit code true s).lzw.nbits = 0 := by
      rw [emit_lzw]
      exact BitVec.eq_of_toNat_eq ((emitLzw_nbits_toNat ..).trans hwhole)
    refine ⟨emitLzw s.lzw code true, ?_⟩
    rw [flush_of_empty hnone, ← emitBytes_closing_of_whole hwhole, emit_eq]
  · have hsome : (emit code true s).lzw.nbits ≠ 0 := by
      rw [emit_lzw]
      exact fun hzero => hwhole ((emitLzw_nbits_toNat ..).symm.trans (congrArg BitVec.toNat hzero))
    have hbyte : (emitLzw s.lzw code true).acc.setWidth 8 =
        BitVec.ofNat 8 (emitTotal s.lzw code / 256 ^ (emitBits s.lzw / 8)) := BitVec.setWidth_ofNat_of_le (by decide) _
    refine ⟨{ emitLzw s.lzw code true with acc := 0, nbits := 0, bcnt := 0 }, ?_⟩
    rw [flush_of_pending hsome, ← emitBytes_closing_of_partial hwhole, beatsOf_append, emit_eq]
    simp only [hbyte, List.append_assoc, beatsOf, subBlockEnds_of_last]

end Sys2Proof.Machine
end

section
/-! SUPPORT. What each unit's commands read and write (R35): one lemma per unit that gives the whole next state from the
unit's own elements. Frames and noninterference follow. -/

namespace Sys2Proof.Machine

/-! ### `SYM`, `BLD`, `QNT` -/

/-- A command of `SYM` reads the elements of `SYM`, writes them and appends answers. -/
theorem exec_sym_local {i : Instr} (hi : isSym i = true) (r : SymRegs) :
    ∃ r' answers, ∀ s : State, s.sym = r → exec i s = .next { s with sym := r', rsp := s.rsp ++ answers } := by
  cases i with
  | symSetdim wreq hreq => exact ⟨_, _, fun s hs => by rw [exec_symSetdim_eq, hs]⟩
  | symSetmode m =>
    cases hmode : modeOfCode? m with
    | none => exact ⟨r, _, fun s hs => by rw [exec_symSetmode_of_none hmode, refuse_eq, ← hs]⟩
    | some mode => exact ⟨{ r with mode := mode }, _, fun s hs => by rw [exec_symSetmode_of_some hmode, hs]; rfl⟩
  | symMap x y => exact ⟨r, _, fun s hs => by rw [exec_symMap_eq x y s rfl, hs]⟩
  | bldVclr | bldLighten | bldDarken | qntQuant | qntPalrd | lzwStart | lzwPut | lzwFinish => cases hi

/-- A command of `BLD` reads `VIS`, writes it and appends answers. -/
theorem exec_bld_local {i : Instr} (hi : isBld i = true) (v : List Cell) :
    ∃ v' answers, ∀ s : State, s.vis = v → exec i s = .next { s with vis := v', rsp := s.rsp ++ answers } := by
  cases i with
  | bldVclr => exact ⟨[], _, fun s _ => vclrEmptiesVisited s⟩
  | bldLighten cx cy pix => exact ⟨_, _, fun s hs => by rw [exec_bldLighten_eq, hs]⟩
  | bldDarken cx cy pix => exact ⟨_, _, fun s hs => by rw [exec_bldDarken_eq, hs]⟩
  | symSetdim | symSetmode | symMap | qntQuant | qntPalrd | lzwStart | lzwPut | lzwFinish => cases hi

/-- A command of `QNT` reads `PAL` and only appends answers. -/
theorem exec_qnt_local {i : Instr} (hsym : isSym i = false) (hbld : isBld i = false) (hlzw : isLzw i = false)
    (pal : Palette) : ∃ answers, ∀ s : State, s.pal = pal → exec i s = .next { s with rsp := s.rsp ++ answers } := by
  cases i with
  | qntQuant pix => exact ⟨_, fun s hs => by rw [exec_qntQuant_eq, hs]⟩
  | qntPalrd idx => exact ⟨_, fun s hs => by rw [exec_qntPalrd_eq, hs]⟩
  | symSetdim | symSetmode | symMap => cases hsym
  | bldVclr | bldLighten | bldDarken => cases hbld
  | lzwStart | lzwPut | lzwFinish => cases hlzw

/-! ### `LZW`

The compressor's operations commute with putting its elements into another state, behind what is already output. -/

/-- The elements of `LZW` in `part`, put into `base`: the beats of `part` are appended. -/
def State.onto (base part : State) : State :=
  { base with lzw := part.lzw, codes := part.codes, freeCtr := part.freeCtr, out := base.out ++ part.out }

/-- The elements of `LZW` alone, with nothing output. -/
def lzwPart (l : LzwRegs) (codes : List (Code × BitVec 4)) (freeCtr : Nat) : State :=
  { State.reset with lzw := l, codes := codes, freeCtr := freeCtr }

theorem onto_lzwPart (s : State) : s.onto (lzwPart s.lzw s.codes s.freeCtr) = s := by
  simp [State.onto, lzwPart, State.reset]

@[simp] theorem State.onto_lzw (base part : State) : (base.onto part).lzw = part.lzw := rfl

@[simp] theorem emit_onto (code : Code) (closing : Bool) (base part : State) :
    emit code closing (base.onto part) = base.onto (emit code closing part) := by
  simp [emit_eq, State.onto]

@[simp] theorem openEncode_onto (base part : State) : openEncode (base.onto part) = base.onto (openEncode part) := rfl

@[simp] theorem lzwReset_onto (base part : State) : lzwReset (base.onto part) = base.onto (lzwReset part) := rfl

@[simp] theorem lzwInsert_onto (p : Code) (k : Symbol) (base part : State) :
    lzwInsert p k (base.onto part) = base.onto (lzwInsert p k part) := rfl

@[simp] theorem setPfx_onto (p : Option Code) (base part : State) :
    setPfx p (base.onto part) = base.onto (setPfx p part) := rfl

@[simp] theorem putUnknown_onto (p : Code) (k : Symbol) (base part : State) :
    putUnknown p k (base.onto part) = base.onto (putUnknown p k part) := by
  simp only [putUnknown, emit_onto, State.onto_lzw, lzwReset_onto, lzwInsert_onto, ← apply_ite (State.onto base),
    setPfx_onto]

@[simp] theorem consume_onto (k : Symbol) (base part : State) :
    consume k (base.onto part) = base.onto (consume k part) := by
  cases hp : part.lzw.pfx with
  | none => simp only [consume, State.onto_lzw, hp, setPfx_onto]
  | some p => cases hf : dictFind part.lzw.dict p k <;> simp [consume, hp, hf]

@[simp] theorem finishPrefix_onto (rule : EndWidthRule) (base part : State) :
    finishPrefix rule (base.onto part) = base.onto (finishPrefix rule part) := by
  cases hp : part.lzw.pfx with
  | none => simp only [finishPrefix, State.onto_lzw, hp]
  | some p =>
    cases rule with
    | insertTime => simp [finishPrefix, hp]
    | emitTime =>
      simp only [finishPrefix, State.onto_lzw, hp, emit_onto]
      rfl

@[simp] theorem flush_onto (base part : State) : flush (base.onto part) = base.onto (flush part) := by
  by_cases h : part.lzw.nbits = 0
  · rw [flush_of_empty h, flush_of_empty (s := base.onto part) h]
  · rw [flush_of_pending h, flush_of_pending (s := base.onto part) h]
    simp [State.onto]

@[simp] theorem finishOutput_onto (rule : EndWidthRule) (base part : State) :
    finishOutput rule (base.onto part) = base.onto (finishOutput rule part) := by
  simp only [finishOutput, finishPrefix_onto, emit_onto, flush_onto]

@[simp] theorem closeEncode_onto (base part : State) :
    closeEncode (base.onto part) = base.onto (closeEncode part) := rfl

/-- A command of `LZW` reads the elements of `LZW`, writes them and appends beats and answers. -/
theorem exec_lzw_local {i : Instr} (hi : isLzw i = true) (part : State) :
    ∃ part' answers, ∀ base : State,
      exec i (base.onto part) = .next ((base.onto part').pushRsp answers) := by
  cases i with
  | lzwStart =>
    cases hphase : part.lzw.phase with
    | active => exact ⟨part, _, fun base => exec_lzwStart_of_active (s := base.onto part) hphase⟩
    | idle =>
      refine ⟨emit Config.clearCode false (openEncode part), [resultWord Opcode.lzwStart.byte .ok 0#48], fun base =>
        (exec_lzwStart_of_idle (s := base.onto part) hphase).trans ?_⟩
      rw [openEncode_onto, emit_onto]
      rfl
  | lzwPut k =>
    cases hphase : part.lzw.phase with
    | active =>
      refine ⟨consume k (part.setLzw { part.lzw with nsym := part.lzw.nsym + 1 }),
        [resultWord Opcode.lzwPut.byte .ok 0#48], fun base =>
        (exec_lzwPut_of_active k (s := base.onto part) hphase).trans ?_⟩
      exact congrArg (fun t => Host.Outcome.next (respond _ _ _ t)) (consume_onto k base (part.setLzw _))
    | idle => exact ⟨part, _, fun base => exec_lzwPut_of_idle k (s := base.onto part) hphase⟩
  | lzwFinish =>
    cases hphase : part.lzw.phase with
    | active =>
      refine ⟨closeEncode (finishOutput .insertTime part), [resultWord Opcode.lzwFinish.byte .ok 0#48], fun base =>
        (exec_lzwFinish_of_active (s := base.onto part) hphase).trans ?_⟩
      rw [finishOutput_onto, closeEncode_onto]
      rfl
    | idle => exact ⟨part, _, fun base => exec_lzwFinish_of_idle (s := base.onto part) hphase⟩
  | symSetdim | symSetmode | symMap | bldVclr | bldLighten | bldDarken | qntQuant | qntPalrd => cases hi

/-! ### Every command -/

/-- A command belongs to exactly one unit (R35). -/
theorem unit_cases (i : Instr) :
    (isSym i = true ∧ isBld i = false ∧ isLzw i = false) ∨ (isSym i = false ∧ isBld i = true ∧ isLzw i = false) ∨
      (isSym i = false ∧ isBld i = false ∧ isLzw i = true) ∨ (isSym i = false ∧ isBld i = false ∧ isLzw i = false) := by
  cases i <;> simp [isSym, isBld, isLzw, Instr.opcode]

/-- All that a command can write: the elements of its own unit, and new words and beats behind the old ones. -/
theorem exec_frame {i : Instr} {s t : State} (h : exec i s = .next t) :
    (isSym i = true ∧ ∃ r answers, t = { s with sym := r, rsp := s.rsp ++ answers }) ∨
    (isBld i = true ∧ ∃ v answers, t = { s with vis := v, rsp := s.rsp ++ answers }) ∨
    (isLzw i = true ∧ ∃ part answers, t = (s.onto part).pushRsp answers) ∨
    (isSym i = false ∧ isBld i = false ∧ isLzw i = false ∧ ∃ answers, t = { s with rsp := s.rsp ++ answers }) := by
  obtain ⟨hsym, -, -⟩ | ⟨-, hbld, -⟩ | ⟨-, -, hlzw⟩ | ⟨hsym, hbld, hlzw⟩ := unit_cases i
  · obtain ⟨r, answers, hexec⟩ := exec_sym_local hsym s.sym
    exact .inl ⟨hsym, r, answers, exec_inj h (hexec s rfl)⟩
  · obtain ⟨v, answers, hexec⟩ := exec_bld_local hbld s.vis
    exact .inr (.inl ⟨hbld, v, answers, exec_inj h (hexec s rfl)⟩)
  · obtain ⟨part, answers, hexec⟩ := exec_lzw_local hlzw (lzwPart s.lzw s.codes s.freeCtr)
    have hs := hexec s
    rw [onto_lzwPart] at hs
    exact .inr (.inr (.inl ⟨hlzw, part, answers, exec_inj h hs⟩))
  · obtain ⟨answers, hexec⟩ := exec_qnt_local hsym hbld hlzw s.pal
    exact .inr (.inr (.inr ⟨hsym, hbld, hlzw, answers, exec_inj h (hexec s rfl)⟩))

/-! ### The statements -/

/-- Settles O14. -/
theorem commandsKeepOtherUnits : Obligations.CommandsKeepOtherUnits := by
  intro i s t h
  obtain ⟨hi, r, answers, rfl⟩ | ⟨hi, v, answers, rfl⟩ | ⟨hi, part, answers, rfl⟩ | ⟨-, -, -, answers, rfl⟩ :=
    exec_frame h
  · exact ⟨rfl, rfl, fun hno => absurd (hi.symm.trans hno) (by decide), fun _ => rfl, fun _ => ⟨rfl, rfl, rfl, rfl⟩⟩
  · exact ⟨rfl, rfl, fun _ => rfl, fun hno => absurd (hi.symm.trans hno) (by decide), fun _ => ⟨rfl, rfl, rfl, rfl⟩⟩
  · exact ⟨rfl, rfl, fun _ => rfl, fun _ => rfl, fun hno => absurd (hi.symm.trans hno) (by decide)⟩
  · exact ⟨rfl, rfl, fun _ => rfl, fun _ => rfl, fun _ => ⟨rfl, rfl, rfl, rfl⟩⟩

/-- Settles O16. -/
theorem streamsOnlyGrow : Obligations.StreamsOnlyGrow := by
  intro i s t h
  obtain ⟨-, r, answers, rfl⟩ | ⟨-, v, answers, rfl⟩ | ⟨-, part, answers, rfl⟩ | ⟨-, -, -, answers, rfl⟩ :=
    exec_frame h
  · exact ⟨List.prefix_append .., List.prefix_rfl⟩
  · exact ⟨List.prefix_append .., List.prefix_rfl⟩
  · exact ⟨List.prefix_append .., List.prefix_append ..⟩
  · exact ⟨List.prefix_append .., List.prefix_rfl⟩

/-- Settles O15: each unit's lemma gives one answer for all states that agree on the unit's elements. -/
theorem resultsDependOnOwnUnit : Obligations.ResultsDependOnOwnUnit := by
  intro i s s' t t' h h' hsym hbld hlzw hqnt
  obtain ⟨hi, hnb, hnl⟩ | ⟨hns, hi, hnl⟩ | ⟨hns, hnb, hi⟩ | ⟨hns, hnb, hnl⟩ := unit_cases i
  · obtain ⟨r, answers, hexec⟩ := exec_sym_local hi s.sym
    obtain rfl := exec_inj h (hexec s rfl)
    obtain rfl := exec_inj h' (hexec s' (hsym hi).symm)
    exact ⟨⟨answers, [], rfl, rfl, by simp, by simp⟩, fun _ => rfl, by simp [hnb], by simp [hnl]⟩
  · obtain ⟨v, answers, hexec⟩ := exec_bld_local hi s.vis
    obtain rfl := exec_inj h (hexec s rfl)
    obtain rfl := exec_inj h' (hexec s' (hbld hi).symm)
    exact ⟨⟨answers, [], rfl, rfl, by simp, by simp⟩, by simp [hns], fun _ => rfl, by simp [hnl]⟩
  · obtain ⟨hl, hctr, hcodes⟩ := hlzw hi
    obtain ⟨part, answers, hexec⟩ := exec_lzw_local hi (lzwPart s.lzw s.codes s.freeCtr)
    have hs := hexec s
    have hs' := hexec s'
    rw [onto_lzwPart] at hs
    rw [hl, hctr, hcodes, onto_lzwPart] at hs'
    obtain rfl := exec_inj h hs
    obtain rfl := exec_inj h' hs'
    exact ⟨⟨answers, part.out, rfl, rfl, rfl, rfl⟩, by simp [hns], by simp [hnb], fun _ => ⟨rfl, rfl⟩⟩
  · obtain ⟨answers, hexec⟩ := exec_qnt_local hns hnb hnl s.pal
    obtain rfl := exec_inj h (hexec s rfl)
    obtain rfl := exec_inj h' (hexec s' (hqnt hns hnb hnl).symm)
    exact ⟨⟨answers, [], rfl, rfl, by simp, by simp⟩, by simp [hns], by simp [hnb], by simp [hnl]⟩

/-- Settles O17. -/
theorem paletteNeverChanges : Obligations.PaletteNeverChanges := by
  intro s t h
  obtain rfl | ⟨rest, rfl⟩ | ⟨op, rest, rfl⟩ | ⟨i, rest, hexec⟩ := step_cases h
  · rfl
  · rfl
  · rfl
  · exact (commandsKeepOtherUnits i _ t hexec).1

/-! ### The visited set within a stroke (R118) -/

/-- Only `BLD.VCLR` takes a cell out of the visited set. -/
theorem exec_keeps_visited {i : Instr} {s t : State} {c : Cell} (h : exec i s = .next t) (hi : i ≠ .bldVclr)
    (hc : c ∈ s.vis) : c ∈ t.vis := by
  cases hbld : isBld i with
  | false =>
    obtain ⟨-, -, -, hvis, -⟩ := commandsKeepOtherUnits i s t h
    rwa [hvis hbld]
  | true =>
    cases i with
    | bldVclr => exact absurd rfl hi
    | bldLighten cx cy pix =>
      obtain rfl := exec_inj (exec_bldLighten_eq ..) h
      exact (mem_visInsert ..).mpr (.inr hc)
    | bldDarken cx cy pix =>
      obtain rfl := exec_inj (exec_bldDarken_eq ..) h
      exact (mem_visInsert ..).mpr (.inr hc)
    | symSetdim | symSetmode | symMap | qntQuant | qntPalrd | lzwStart | lzwPut | lzwFinish => cases hbld

theorem runInstrs_keeps_visited {is : List Instr} {s t : State} {c : Cell} (h : runInstrs is s = some t)
    (his : .bldVclr ∉ is) (hc : c ∈ s.vis) : c ∈ t.vis := by
  induction is generalizing s with
  | nil =>
    obtain rfl := Option.some.inj h
    exact hc
  | cons i is ih =>
    obtain ⟨hne, his⟩ : .bldVclr ≠ i ∧ .bldVclr ∉ is := by simpa using his
    obtain ⟨u, hexec, -⟩ := exec_answersAs i s
    rw [runInstrs_cons hexec] at h
    exact ih h his (exec_keeps_visited hexec hne.symm hc)

/-- Either command marks its cell (R113). -/
theorem mem_vis_of_exec {i : Instr} {cx cy : BitVec 8} {pix : BitVec 32} {s t : State}
    (hi : i = .bldLighten cx cy pix ∨ i = .bldDarken cx cy pix) (h : exec i s = .next t) :
    cellNumber cx cy ∈ t.vis := by
  obtain rfl | rfl := hi
  · obtain rfl := exec_inj (exec_bldLighten_eq ..) h
    exact (mem_visInsert ..).mpr (.inl rfl)
  · obtain rfl := exec_inj (exec_bldDarken_eq ..) h
    exact (mem_visInsert ..).mpr (.inl rfl)

/-- Settles O35: the first command marks the cell, and the commands between keep the mark. -/
theorem oncePerStroke : Obligations.OncePerStroke := by
  intro i cx cy pix pix' between s t u hi hexec hbetween hrun
  have hmem : cellNumber cx cy ∈ u.vis := runInstrs_keeps_visited hrun hbetween (mem_vis_of_exec hi hexec)
  exact ⟨_, _, _, _, exec_bldLighten_eq cx cy pix' u, rfl, blendWord_of_visited _ _ hmem pix',
    exec_bldDarken_eq cx cy pix' u, rfl, blendWord_of_visited _ _ hmem pix'⟩

end Sys2Proof.Machine
end

section
/-! SUPPORT. The compressor's elements (R26 to R33): `LZW.START` and the four cases of `LZW.PUT` as whole next states,
and that each keeps what holds of the dictionary, the width, the pending string and the pending bits. -/

namespace Sys2Proof.Machine

/-! ### `LZW.START` (R153) -/

theorem exec_lzwStart_eq {s : State} (h : s.lzw.phase = .idle) :
    exec .lzwStart s =
      .next { s with
        lzw := startedLzw
        codes := [(256#12, 9#4)]
        out := s.out ++ [0x000#10]
        rsp := s.rsp ++ [0x4000000000000000#64] } := by
  rw [exec_lzwStart_of_idle h, emit_clear_openEncode]
  rfl

/-- Settles O46. -/
theorem startOpensEncode : Obligations.StartOpensEncode := fun _ h =>
  ⟨_, exec_lzwStart_eq h, rfl, rfl, rfl, rfl, rfl, rfl, rfl, rfl, rfl⟩

/-! ### The cases of `LZW.PUT` (R155) -/

theorem consume_of_known {k : Symbol} {s : State} {p c : Code} (hp : s.lzw.pfx = some p)
    (hc : dictFind s.lzw.dict p k = some c) : consume k s = setPfx (some c) s := by
  simp only [consume, hp, hc]

theorem consume_of_unknown {k : Symbol} {s : State} {p : Code} (hp : s.lzw.pfx = some p)
    (hnone : dictFind s.lzw.dict p k = none) : consume k s = putUnknown p k s := by
  simp only [consume, hp, hnone]

theorem putUnknown_of_room (p : Code) (k : Symbol) {s : State} (h : s.lzw.nextCode.toNat ≠ 4096) :
    putUnknown p k s = setPfx (some (literalCode k)) (lzwInsert p k (emit p false s)) := by
  have hroom : (emit p false s).lzw.nextCode.toNat ≠ Config.dictLimit := by simpa [Config.dictLimit] using h
  simp only [putUnknown, if_neg hroom]

theorem putUnknown_of_full (p : Code) (k : Symbol) {s : State} (h : s.lzw.nextCode.toNat = 4096) :
    putUnknown p k s =
      setPfx (some (literalCode k)) (lzwReset (emit Config.clearCode false (emit p false s))) := by
  have hfull : (emit p false s).lzw.nextCode.toNat = Config.dictLimit := by simpa [Config.dictLimit] using h
  simp only [putUnknown, if_pos hfull]

/-- The LZW elements after `LZW.PUT` emitted the prefix code and inserted the extended string (R156, R157). -/
def insertedLzw (l : LzwRegs) (p : Code) (k : Symbol) : LzwRegs :=
  { emitLzw l p false with
    width := widen l.nextCode l.width
    dict := l.dict ++ [⟨p, k, l.nextCode.setWidth 12⟩]
    nextCode := l.nextCode + 1
    pfx := some (literalCode k)
    nsym := l.nsym + 1 }

/-- The LZW elements after `LZW.PUT` emitted the prefix code and CLEAR from a full dictionary (R158). -/
def clearedLzw (l : LzwRegs) (p : Code) (k : Symbol) : LzwRegs :=
  { emitLzw (emitLzw l p false) Config.clearCode false with
    width := 9#4
    dict := []
    nextCode := 258#13
    pfx := some (literalCode k)
    nsym := l.nsym + 1 }

theorem exec_lzwPut_of_none (k : Symbol) {s : State} (hactive : s.lzw.phase = .active) (hp : s.lzw.pfx = none) :
    exec (.lzwPut k) s =
      .next { s with
        lzw := { s.lzw with pfx := some (literalCode k), nsym := s.lzw.nsym + 1 }
        rsp := s.rsp ++ [0x4100000000000000#64] } := by
  rw [exec_lzwPut_of_active k hactive, consume_of_none k (by exact hp)]
  rfl

theorem exec_lzwPut_of_known {k : Symbol} {s : State} {p c : Code} (hactive : s.lzw.phase = .active)
    (hp : s.lzw.pfx = some p) (hc : dictFind s.lzw.dict p k = some c) :
    exec (.lzwPut k) s =
      .next { s with
        lzw := { s.lzw with pfx := some c, nsym := s.lzw.nsym + 1 }
        rsp := s.rsp ++ [0x4100000000000000#64] } := by
  rw [exec_lzwPut_of_active k hactive, consume_of_known (by exact hp) (by exact hc)]
  rfl

theorem exec_lzwPut_of_room {k : Symbol} {s : State} {p : Code} (hactive : s.lzw.phase = .active)
    (hp : s.lzw.pfx = some p) (hnone : dictFind s.lzw.dict p k = none) (hroom : s.lzw.nextCode.toNat ≠ 4096) :
    exec (.lzwPut k) s =
      .next { s with
        lzw := insertedLzw s.lzw p k
        codes := s.codes ++ [(p, s.lzw.width)]
        out := s.out ++ beatsOf s.lzw.bcnt (emitBytes s.lzw p false)
        rsp := s.rsp ++ [0x4100000000000000#64] } := by
  rw [exec_lzwPut_of_active k hactive, consume_of_unknown (by exact hp) (by exact hnone),
    putUnknown_of_room p k (by exact hroom), emit_eq]
  rfl

theorem exec_lzwPut_of_full {k : Symbol} {s : State} {p : Code} (hactive : s.lzw.phase = .active)
    (hp : s.lzw.pfx = some p) (hnone : dictFind s.lzw.dict p k = none) (hfull : s.lzw.nextCode.toNat = 4096) :
    exec (.lzwPut k) s =
      .next { s with
        lzw := clearedLzw s.lzw p k
        codes := s.codes ++ [(p, s.lzw.width)] ++ [(256#12, s.lzw.width)]
        out := s.out ++ beatsOf s.lzw.bcnt (emitBytes s.lzw p false) ++
          beatsOf (emitLzw s.lzw p false).bcnt (emitBytes (emitLzw s.lzw p false) Config.clearCode false)
        rsp := s.rsp ++ [0x4100000000000000#64] } := by
  rw [exec_lzwPut_of_active k hactive, consume_of_unknown (by exact hp) (by exact hnone),
    putUnknown_of_full p k (by exact hfull), emit_eq, emit_eq]
  rfl

/-- All that `LZW.PUT` can do (R155): there is no prefix, or a known extension moves it, or an unknown one emits it,
with room in the dictionary or without. -/
theorem exec_lzwPut_cases {k : Symbol} {s t : State} (hactive : s.lzw.phase = .active)
    (h : exec (.lzwPut k) s = .next t) :
    (s.lzw.pfx = none ∧
      t = { s with
        lzw := { s.lzw with pfx := some (literalCode k), nsym := s.lzw.nsym + 1 }
        rsp := s.rsp ++ [0x4100000000000000#64] }) ∨
    ∃ p, s.lzw.pfx = some p ∧
      ((∃ c, dictFind s.lzw.dict p k = some c ∧
        t = { s with
          lzw := { s.lzw with pfx := some c, nsym := s.lzw.nsym + 1 }
          rsp := s.rsp ++ [0x4100000000000000#64] }) ∨
      (dictFind s.lzw.dict p k = none ∧ s.lzw.nextCode.toNat ≠ 4096 ∧
        t = { s with
          lzw := insertedLzw s.lzw p k
          codes := s.codes ++ [(p, s.lzw.width)]
          out := s.out ++ beatsOf s.lzw.bcnt (emitBytes s.lzw p false)
          rsp := s.rsp ++ [0x4100000000000000#64] }) ∨
      (dictFind s.lzw.dict p k = none ∧ s.lzw.nextCode.toNat = 4096 ∧
        t = { s with
          lzw := clearedLzw s.lzw p k
          codes := s.codes ++ [(p, s.lzw.width)] ++ [(256#12, s.lzw.width)]
          out := s.out ++ beatsOf s.lzw.bcnt (emitBytes s.lzw p false) ++
            beatsOf (emitLzw s.lzw p false).bcnt (emitBytes (emitLzw s.lzw p false) Config.clearCode false)
          rsp := s.rsp ++ [0x4100000000000000#64] })) := by
  cases hp : s.lzw.pfx with
  | none => exact .inl ⟨rfl, exec_inj h (exec_lzwPut_of_none k hactive hp)⟩
  | some p =>
    refine .inr ⟨p, rfl, ?_⟩
    cases hfind : dictFind s.lzw.dict p k with
    | some c => exact .inl ⟨c, rfl, exec_inj h (exec_lzwPut_of_known hactive hp hfind)⟩
    | none =>
      rcases ne_or_eq s.lzw.nextCode.toNat 4096 with hroom | hfull
      · exact .inr (.inl ⟨rfl, hroom, exec_inj h (exec_lzwPut_of_room hactive hp hfind hroom)⟩)
      · exact .inr (.inr ⟨rfl, hfull, exec_inj h (exec_lzwPut_of_full hactive hp hfind hfull)⟩)

/-- Settles O48. -/
theorem putCountsSymbol : Obligations.PutCountsSymbol := by
  intro k s hactive
  obtain ⟨t, h, -⟩ := exec_answersAs (.lzwPut k) s
  refine ⟨t, h, ?_⟩
  obtain ⟨-, rfl⟩ | ⟨p, -, ⟨c, -, rfl⟩ | ⟨-, -, rfl⟩ | ⟨-, -, rfl⟩⟩ := exec_lzwPut_cases hactive h
  all_goals exact ⟨rfl, hactive, Option.some_ne_none _, rfl, rfl, rfl, rfl, rfl, rfl⟩

/-- All that a command can do to the elements of `LZW`: nothing, or it is one of the three in its own phase (R154). -/
theorem exec_lzw_cases {i : Instr} {s t : State} (h : exec i s = .next t) :
    (t.lzw = s.lzw ∧ t.out = s.out ∧ t.codes = s.codes) ∨
      (s.lzw.phase = .idle ∧ exec .lzwStart s = .next t) ∨
      (s.lzw.phase = .active ∧ ∃ k, exec (.lzwPut k) s = .next t) ∨
      (s.lzw.phase = .active ∧ exec .lzwFinish s = .next t) := by
  obtain ⟨-, -, -, -, hsame⟩ := commandsKeepOtherUnits i s t h
  cases i with
  | lzwStart =>
    cases hphase : s.lzw.phase with
    | active =>
      obtain rfl := exec_inj (exec_lzwStart_of_active hphase) h
      exact .inl ⟨rfl, rfl, rfl⟩
    | idle => exact .inr (.inl ⟨rfl, h⟩)
  | lzwPut k =>
    cases hphase : s.lzw.phase with
    | active => exact .inr (.inr (.inl ⟨rfl, k, h⟩))
    | idle =>
      obtain rfl := exec_inj (exec_lzwPut_of_idle k hphase) h
      exact .inl ⟨rfl, rfl, rfl⟩
  | lzwFinish =>
    cases hphase : s.lzw.phase with
    | active => exact .inr (.inr (.inr ⟨rfl, h⟩))
    | idle =>
      obtain rfl := exec_inj (exec_lzwFinish_of_idle hphase) h
      exact .inl ⟨rfl, rfl, rfl⟩
  | symSetdim | symSetmode | symMap | bldVclr | bldLighten | bldDarken | qntQuant | qntPalrd =>
    obtain ⟨hlzw, hout, hcodes, -⟩ := hsame rfl
    exact .inl ⟨hlzw, hout, hcodes⟩

/-- With every string in one row, the table finds each row by its key (R47, R52). -/
theorem dictFind_of_mem {dict : List DictRow} (hkeys : (dict.map fun row => (row.pcode, row.sym)).Nodup) {row : DictRow}
    (hrow : row ∈ dict) : dictFind dict row.pcode row.sym = some row.code := by
  cases hfind : dictFind dict row.pcode row.sym with
  | none => exact absurd ⟨rfl, rfl⟩ (dictFind_none.mp hfind row hrow)
  | some c =>
    have hsame : (⟨row.pcode, row.sym, c⟩ : DictRow) = row :=
      List.inj_on_of_nodup_map hkeys (dictFind_some hfind) hrow rfl
    rw [← hsame]

/-- Settles O49. -/
theorem putExtendsPrefix : Obligations.PutExtendsPrefix := by
  refine fun k s hactive => ⟨fun hp => exec_lzwPut_of_none k hactive hp, ?_⟩
  rintro p row hp hwf hrow rfl rfl
  exact exec_lzwPut_of_known hactive hp (dictFind_of_mem hwf.keys_distinct hrow)

/-! ### The code width (R27) -/

theorem widthFor_bounds (n : Nat) : 9 ≤ widthFor n ∧ widthFor n ≤ 12 := by
  unfold widthFor
  split_ifs <;> omega

/-- At its width, every code below `NEXT` fits. -/
theorem le_two_pow_widthFor {n : Nat} (h : n ≤ 4096) : n ≤ 2 ^ widthFor n := by
  unfold widthFor
  split_ifs <;> omega

/-- The width rule of an insertion (R156) follows `NEXT`. -/
theorem widthFor_succ {n : Nat} (h : n < 4096) :
    widthFor (n + 1) = if 2 ^ widthFor n ≤ n ∧ widthFor n < 12 then widthFor n + 1 else widthFor n := by
  unfold widthFor
  split_ifs <;> omega

theorem LzwWf.width_bounds {l : LzwRegs} (h : LzwWf l) : 9 ≤ l.width.toNat ∧ l.width.toNat ≤ 12 := by
  rw [h.width_least]
  exact widthFor_bounds _

theorem LzwWf.codeNames_fits {l : LzwRegs} (h : LzwWf l) {c : Code} (hc : codeNames l.nextCode.toNat c) :
    c.toNat < 2 ^ l.width.toNat := by
  have hle := le_two_pow_widthFor h.next_range.2
  obtain ⟨hlow, -⟩ := h.next_range
  rw [h.width_least]
  obtain hliteral | ⟨-, hlt⟩ := hc <;> omega

theorem LzwWf.control_fits {l : LzwRegs} (h : LzwWf l) :
    Config.clearCode.toNat < 2 ^ l.width.toNat ∧ Config.endCode.toNat < 2 ^ l.width.toNat := by
  have hle : 2 ^ 9 ≤ 2 ^ l.width.toNat := Nat.pow_le_pow_right (by decide) h.width_bounds.1
  have hclear : Config.clearCode.toNat = 256 := rfl
  have hend : Config.endCode.toNat = 257 := rfl
  omega

/-! ### The elements stay well-formed (R33) -/

theorem codeNames_literal (n : Nat) (k : Symbol) : codeNames n (literalCode k) :=
  .inl (by rw [literalCode_toNat]; exact k.isLt)

theorem codeNames_mono {m n : Nat} (h : m ≤ n) {c : Code} (hc : codeNames m c) : codeNames n c :=
  hc.imp_right fun ⟨hlow, hlt⟩ => ⟨hlow, hlt.trans_le h⟩

/-- The code of a row is one that `NEXT` has passed (R26). -/
theorem LzwWf.codeNames_of_mem {l : LzwRegs} (h : LzwWf l) {row : DictRow} (hrow : row ∈ l.dict) :
    codeNames l.nextCode.toNat row.code := by
  have hmem : row.code.toNat ∈ l.dict.map fun row => row.code.toNat := List.mem_map_of_mem hrow
  rw [h.codes_exact, List.mem_range'_1] at hmem
  exact .inr (by omega)

theorem startedLzw_wf : LzwWf startedLzw where
  next_range := by decide
  codes_exact := rfl
  rows_closed := by simp [startedLzw]
  keys_distinct := List.nodup_nil
  width_least := rfl
  prefix_key := by simp [startedLzw]
  pending_bits := by decide
  acc_bound := by decide
  bcnt_bound := by decide

/-- Moving the prefix to another key, and counting a symbol, keeps the rest. -/
theorem LzwWf.movePfx {l : LzwRegs} (h : LzwWf l) {c : Code} (hc : codeNames l.nextCode.toNat c) (n : Nat) :
    LzwWf { l with pfx := some c, nsym := n } :=
  { h with prefix_key := fun _ hp => Option.some.inj hp ▸ hc }

theorem LzwWf.emitted_pending {l : LzwRegs} (h : LzwWf l) {p : Code} (hp : l.pfx = some p) :
    PendingWf (emitLzw l p false) :=
  emitLzw_pendingWf h.pending (h.codeNames_fits (h.prefix_key p hp)) false

theorem nextCode_succ {n : BitVec 13} (h : n.toNat ≤ 4096) : (n + 1).toNat = n.toNat + 1 := by
  rw [BitVec.toNat_add]
  exact Nat.mod_eq_of_lt (by simp; omega)

theorem LzwWf.inserted {l : LzwRegs} (h : LzwWf l) {p : Code} {k : Symbol} (hp : l.pfx = some p)
    (hnone : dictFind l.dict p k = none) (hroom : l.nextCode.toNat ≠ 4096) : LzwWf (insertedLzw l p k) := by
  obtain ⟨hlow, hhigh⟩ := h.next_range
  have hnext : (insertedLzw l p k).nextCode.toNat = l.nextCode.toNat + 1 := nextCode_succ hhigh
  have hcode : (l.nextCode.setWidth 12).toNat = l.nextCode.toNat := by
    rw [BitVec.toNat_setWidth]
    exact Nat.mod_eq_of_lt (by omega)
  have hpending := h.emitted_pending hp
  refine ⟨?_, ?_, ?_, ?_, ?_, ?_, hpending.pending_bits, hpending.acc_bound, hpending.bcnt_bound⟩
  · omega
  · have hcount : l.nextCode.toNat + 1 - 258 = l.nextCode.toNat - 258 + 1 := by omega
    have hlast : 258 + (l.nextCode.toNat - 258) = l.nextCode.toNat := by omega
    rw [hnext, hcount, List.range'_1_concat, ← h.codes_exact, hlast]
    simp [insertedLzw, hcode]
  · refine List.forall_mem_append.mpr ⟨h.rows_closed, List.forall_mem_singleton.mpr ?_⟩
    rw [hcode]
    exact h.prefix_key p hp
  · have hkeys : ((insertedLzw l p k).dict.map fun row => (row.pcode, row.sym)) =
        (l.dict.map fun row => (row.pcode, row.sym)).concat (p, k) := by simp [insertedLzw]
    rw [hkeys]
    refine h.keys_distinct.concat fun hmem => ?_
    obtain ⟨row, hrow, hkey⟩ := List.mem_map.mp hmem
    obtain ⟨hpcode, hsym⟩ := Prod.mk.inj hkey
    exact dictFind_none.mp hnone row hrow ⟨hpcode, hsym⟩
  · rw [hnext, widthFor_succ (by omega), ← h.width_least]
    exact widen_spec _ h.width_bounds.2
  · intro q hq
    obtain rfl := Option.some.inj hq
    exact codeNames_literal _ k

theorem LzwWf.cleared {l : LzwRegs} (h : LzwWf l) {p : Code} (k : Symbol) (hp : l.pfx = some p) :
    LzwWf (clearedLzw l p k) := by
  have hpending : PendingWf (emitLzw (emitLzw l p false) Config.clearCode false) :=
    emitLzw_pendingWf (h.emitted_pending hp) h.control_fits.1 false
  refine ⟨by simp [clearedLzw], by simp [clearedLzw], by simp [clearedLzw], List.nodup_nil,
    by simp [clearedLzw, widthFor], ?_, hpending.pending_bits, hpending.acc_bound, hpending.bcnt_bound⟩
  intro q hq
  obtain rfl := Option.some.inj hq
  exact codeNames_literal _ k

/-- Every `LZW.PUT` keeps the LZW elements well-formed. -/
theorem exec_lzwPut_keeps_wf {k : Symbol} {s t : State} (hactive : s.lzw.phase = .active) (hwf : LzwWf s.lzw)
    (h : exec (.lzwPut k) s = .next t) : LzwWf t.lzw := by
  obtain ⟨hp, rfl⟩ | ⟨p, hp, ⟨c, hc, rfl⟩ | ⟨hnone, hroom, rfl⟩ | ⟨hnone, hfull, rfl⟩⟩ :=
    exec_lzwPut_cases hactive h
  · exact hwf.movePfx (codeNames_literal _ k) _
  · exact hwf.movePfx (hwf.codeNames_of_mem (dictFind_some hc)) _
  · exact hwf.inserted hp hnone hroom
  · exact hwf.cleared k hp

/-! ### The invariant of the block -/

theorem exec_keeps_extents {i : Instr} {s t : State} (h : exec i s = .next t) (hext : ExtentsWf s.sym) :
    ExtentsWf t.sym := by
  obtain ⟨-, -, hsym, -⟩ := commandsKeepOtherUnits i s t h
  cases i with
  | symSetdim wreq hreq =>
    obtain rfl := exec_inj (exec_symSetdim_eq ..) h
    exact ⟨(clampExtent_bounds _).1, (clampExtent_bounds _).2, clampExtent_bounds _⟩
  | symSetmode m =>
    cases hmode : modeOfCode? m with
    | none =>
      obtain rfl := exec_inj (exec_symSetmode_of_none hmode s) h
      exact hext
    | some mode =>
      obtain rfl := exec_inj (exec_symSetmode_of_some hmode s) h
      exact hext
  | symMap x y =>
    obtain rfl := exec_inj (exec_symMap_eq x y s rfl) h
    exact hext
  | bldVclr | bldLighten | bldDarken | qntQuant | qntPalrd | lzwStart | lzwPut | lzwFinish =>
    rw [hsym rfl]
    exact hext

theorem exec_keeps_visWf {i : Instr} {s t : State} (h : exec i s = .next t) (hvis : VisWf s.vis) : VisWf t.vis := by
  obtain ⟨-, -, -, hsame, -⟩ := commandsKeepOtherUnits i s t h
  cases i with
  | bldVclr =>
    obtain rfl := exec_inj (vclrEmptiesVisited s) h
    exact List.Pairwise.nil
  | bldLighten cx cy pix =>
    obtain rfl := exec_inj (exec_bldLighten_eq ..) h
    exact visInsert_sorted _ hvis
  | bldDarken cx cy pix =>
    obtain rfl := exec_inj (exec_bldDarken_eq ..) h
    exact visInsert_sorted _ hvis
  | symSetdim | symSetmode | symMap | qntQuant | qntPalrd | lzwStart | lzwPut | lzwFinish =>
    rw [hsame rfl]
    exact hvis

theorem exec_keeps_lzwWf {i : Instr} {s t : State} (h : exec i s = .next t)
    (hwf : s.lzw.phase = .active → LzwWf s.lzw) : t.lzw.phase = .active → LzwWf t.lzw := by
  obtain ⟨hlzw, -, -⟩ | ⟨hidle, hstart⟩ | ⟨hactive, k, hput⟩ | ⟨hactive, hfinish⟩ := exec_lzw_cases h
  · rwa [hlzw]
  · obtain rfl := exec_inj (exec_lzwStart_eq hidle) hstart
    exact fun _ => startedLzw_wf
  · exact fun _ => exec_lzwPut_keeps_wf hactive (hwf hactive) hput
  · obtain rfl := exec_inj (exec_lzwFinish_of_active hactive) hfinish
    exact nofun

theorem hostReset_inv {s : State} (hpal : s.pal = Config.palette) : Inv (hostReset s) where
  extents := (by unfold ExtentsWf; decide : ExtentsWf State.reset.sym)
  visited := List.Pairwise.nil
  palette := hpal
  encode := nofun

/-- Settles O18: each part of the invariant is kept by the commands of the one unit that can write it. -/
theorem stepKeepsInvariant : Obligations.StepKeepsInvariant := by
  intro s t hinv h
  obtain rfl | ⟨rest, rfl⟩ | ⟨op, rest, rfl⟩ | ⟨i, rest, hexec⟩ := step_cases h
  · exact hinv
  · exact hostReset_inv hinv.palette
  · exact ⟨hinv.extents, hinv.visited, hinv.palette, hinv.encode⟩
  · exact ⟨exec_keeps_extents hexec hinv.extents, exec_keeps_visWf hexec hinv.visited,
      (commandsKeepOtherUnits i _ t hexec).1.trans hinv.palette, exec_keeps_lzwWf hexec hinv.encode⟩

/-- Settles O21: the reset state is reset. -/
theorem resetHasInvariants : Obligations.ResetHasInvariants :=
  ⟨hostReset_inv (s := State.reset) rfl, nofun, rfl⟩

/-! ### The width of END (R159) -/

/-- Away from the powers of two the insertion left out by `LZW.FINISH` would not have raised the width. -/
theorem LzwWf.widen_eq {l : LzwRegs} (h : LzwWf l)
    (hne : l.nextCode.toNat ≠ 512 ∧ l.nextCode.toNat ≠ 1024 ∧ l.nextCode.toNat ≠ 2048) :
    widen l.nextCode l.width = l.width := by
  refine if_neg fun ⟨hfull, hmax⟩ => ?_
  have hle := le_two_pow_widthFor h.next_range.2
  rw [← h.width_least] at hle
  have heq : l.nextCode.toNat = 2 ^ l.width.toNat := le_antisymm hle hfull
  have hbounds := h.width_bounds
  have hcases : l.width.toNat = 9 ∨ l.width.toNat = 10 ∨ l.width.toNat = 11 := by
    rw [Config.widthMax] at hmax
    omega
  obtain hw | hw | hw := hcases <;> rw [hw] at heq <;> omega

/-- Settles O55. -/
theorem endWidthRulesAgree : Obligations.EndWidthRulesAgree := by
  intro s hwf hcase
  have hsame : finishPrefix .emitTime s = finishPrefix .insertTime s := by
    cases hp : s.lzw.pfx with
    | none => rw [finishPrefix_of_none _ hp, finishPrefix_of_none _ hp]
    | some p =>
      have hwiden := hwf.widen_eq (hcase.resolve_left (by simp [hp]))
      simp only [finishPrefix, hp, emit_lzw, emitLzw_nextCode, emitLzw_width, hwiden]
      rw [emit_eq]
      rfl
  rw [finishOutput, hsame, finishOutput]

end Sys2Proof.Machine
end

section
/-! SUPPORT. The codestream (R55, R56, R82, R150): the bits and the numbers that runs of bytes carry, `LZW.FINISH` as a
whole next state, and that codes, bytes and sub-blocks stay in step with each other. -/

namespace Sys2Proof.Machine

/-! ### Bits of a number -/

theorem lowBits_add (n m v : Nat) : lowBits (n + m) v = lowBits n v ++ lowBits m (v / 2 ^ n) := by
  simp [lowBits, List.range_add, Nat.testBit_div_two_pow, Function.comp_def, Nat.add_comm]

theorem lowBits_mod (n v : Nat) : lowBits n (v % 2 ^ n) = lowBits n v := by
  refine List.map_congr_left fun j hj => ?_
  rw [Nat.testBit_mod_two_pow, decide_eq_true (List.mem_range.mp hj), Bool.true_and]

@[simp] theorem lowBits_zero (n : Nat) : lowBits n 0 = List.replicate n false :=
  List.eq_replicate_iff.mpr ⟨by simp [lowBits], by simp [lowBits]⟩

/-- The bits of a value with another above it. -/
theorem lowBits_add_mul {a n : Nat} (ha : a < 2 ^ n) (m c : Nat) :
    lowBits (n + m) (a + c * 2 ^ n) = lowBits n a ++ lowBits m c := by
  have hlow : (a + c * 2 ^ n) % 2 ^ n = a := by rw [Nat.add_mul_mod_self_right, Nat.mod_eq_of_lt ha]
  have hhigh : (a + c * 2 ^ n) / 2 ^ n = c := by
    rw [Nat.add_mul_div_right _ _ (Nat.two_pow_pos n), Nat.div_eq_of_lt ha, Nat.zero_add]
  rw [lowBits_add, ← lowBits_mod n (a + c * 2 ^ n), hlow, hhigh]

@[simp] theorem codeBits_append (cs cs' : List (Code × BitVec 4)) :
    codeBits (cs ++ cs') = codeBits cs ++ codeBits cs' := by
  simp [codeBits]

@[simp] theorem codeBits_singleton (c : Code × BitVec 4) : codeBits [c] = lowBits c.2.toNat c.1.toNat := by
  simp [codeBits]

@[simp] theorem beatBits_append (bs bs' : List Beat) : beatBits (bs ++ bs') = beatBits bs ++ beatBits bs' := by
  simp [beatBits]

/-! ### The number that beats carry (R150) -/

theorem carriesLowBits_cons {b : Beat} {bs : List Beat} {total : Nat} :
    carriesLowBits (b :: bs) total ↔ beatData b = total % 256 ∧ carriesLowBits bs (total / 256) := by
  have hshift (j : Nat) : total / 256 ^ (j + 1) % 256 = total / 256 / 256 ^ j % 256 := by
    rw [Nat.div_div_eq_div_mul, ← Nat.pow_succ']
  simp [carriesLowBits, List.range_succ_eq_map, Function.comp_def, hshift]

/-- Beats behind others carry the bits above theirs. -/
theorem carriesLowBits_append {bs bs' : List Beat} {total above : Nat} (h : carriesLowBits bs total)
    (h' : carriesLowBits bs' (total / 256 ^ bs.length + above)) :
    carriesLowBits (bs ++ bs') (total + above * 256 ^ bs.length) := by
  induction bs generalizing total with
  | nil => simpa using h'
  | cons b bs ih =>
    obtain ⟨hb, hbs⟩ := carriesLowBits_cons.mp h
    have hsplit : total + above * 256 ^ (bs.length + 1) = total + above * 256 ^ bs.length * 256 := by ring
    rw [List.length_cons] at h' ⊢
    rw [List.cons_append, carriesLowBits_cons, hsplit, Nat.add_mul_mod_self_right,
      Nat.add_mul_div_right _ _ (by decide)]
    refine ⟨hb, ih hbs ?_⟩
    rwa [Nat.div_div_eq_div_mul, ← Nat.pow_succ']

theorem beatBits_of_carriesLowBits {bs : List Beat} {total : Nat} (h : carriesLowBits bs total) :
    beatBits bs = lowBits (8 * bs.length) total := by
  induction bs generalizing total with
  | nil => rfl
  | cons b bs ih =>
    obtain ⟨hb, hbs⟩ := carriesLowBits_cons.mp h
    have hlen : 8 * (b :: bs).length = 8 + 8 * bs.length := by
      rw [List.length_cons]
      omega
    rw [hlen, lowBits_add, ← lowBits_mod 8 total, ← List.singleton_append, beatBits_append, ih hbs]
    simp [beatBits, hb]

/-- A run of bytes carries the number it was cut from. -/
theorem carriesLowBits_beatsOf {bytes : List (BitVec 8 × Bool)} {total n : Nat}
    (h : bytes.map Prod.fst = (List.range n).map fun j => BitVec.ofNat 8 (total / 256 ^ j)) (count : BitVec 8) :
    carriesLowBits (beatsOf count bytes) total := by
  have hlen : bytes.length = n := by simpa using congrArg List.length h
  have hdata : (bytes.map fun bf => bf.1.toNat) = (bytes.map Prod.fst).map BitVec.toNat := by simp
  rw [carriesLowBits, map_beatData_beatsOf, length_beatsOf, hdata, h, hlen]
  simp

theorem carriesLowBits_emitBytes (l : LzwRegs) (code : Code) (closing : Bool) (count : BitVec 8) :
    carriesLowBits (beatsOf count (emitBytes l code closing)) (emitTotal l code) :=
  carriesLowBits_beatsOf (n := emitBits l / 8) (by simp [emitBytes, drainBytes]) count

theorem carriesLowBits_closingBytes (total n : Nat) (count : BitVec 8) :
    carriesLowBits (beatsOf count (closingBytes total n)) total :=
  carriesLowBits_beatsOf (n := n) (by simp [closingBytes]) count

/-! ### Codes, bytes and pending bits (R55) -/

theorem lowBits_emitTotal {l : LzwRegs} (h : PendingWf l) (code : Code) :
    lowBits (emitBits l) (emitTotal l code) = lowBits l.nbits.toNat l.acc.toNat ++ lowBits l.width.toNat code.toNat :=
  lowBits_add_mul h.acc_bound _ _

/-- `emit` outputs the oldest bits and keeps the others pending: none is lost and none is added. -/
theorem beatBits_emitBytes {l : LzwRegs} (h : PendingWf l) {code : Code} (hfit : code.toNat < 2 ^ l.width.toNat)
    (closing : Bool) (count : BitVec 8) :
    beatBits (beatsOf count (emitBytes l code closing)) ++
        lowBits (emitLzw l code closing).nbits.toNat (emitLzw l code closing).acc.toNat =
      lowBits l.nbits.toNat l.acc.toNat ++ lowBits l.width.toNat code.toNat := by
  have hpow : (256 : Nat) ^ (emitBits l / 8) = 2 ^ (8 * (emitBits l / 8)) := by rw [Nat.pow_mul]
  rw [beatBits_of_carriesLowBits (carriesLowBits_emitBytes ..), length_beatsOf, length_emitBytes,
    emitLzw_nbits_toNat, emitLzw_acc_toNat h hfit, hpow, ← lowBits_add, Nat.div_add_mod, lowBits_emitTotal h]

/-- The closing run outputs all bits and fills the last byte with zeros (R56). -/
theorem beatBits_closingBytes {l : LzwRegs} (h : PendingWf l) {code : Code} (hfit : code.toNat < 2 ^ l.width.toNat)
    (count : BitVec 8) :
    beatBits (beatsOf count (closingBytes (emitTotal l code) ((emitBits l + 7) / 8))) =
      lowBits l.nbits.toNat l.acc.toNat ++ lowBits l.width.toNat code.toNat ++
        List.replicate (8 * ((emitBits l + 7) / 8) - emitBits l) false := by
  have hlen : 8 * ((emitBits l + 7) / 8) = emitBits l + (8 * ((emitBits l + 7) / 8) - emitBits l) := by omega
  rw [beatBits_of_carriesLowBits (carriesLowBits_closingBytes ..), length_beatsOf, length_closingBytes, hlen,
    lowBits_add, Nat.div_eq_of_lt (emitTotal_lt h hfit), lowBits_zero, lowBits_emitTotal h, Nat.add_sub_cancel_left]

/-- Behind the beats `older`, the output bytes and the pending bits are the codes emitted, bit for bit. -/
def PackedBehind (older : List Beat) (s : State) : Prop :=
  ∃ newer, s.out = older ++ newer ∧
    beatBits newer ++ lowBits s.lzw.nbits.toNat s.lzw.acc.toNat = codeBits s.codes

/-- One more code emitted keeps the bytes and the codes in step. -/
theorem packed_emit {l : LzwRegs} (h : PendingWf l) {code : Code} (hfit : code.toNat < 2 ^ l.width.toNat)
    {newer : List Beat} {codes : List (Code × BitVec 4)}
    (hbits : beatBits newer ++ lowBits l.nbits.toNat l.acc.toNat = codeBits codes) :
    beatBits (newer ++ beatsOf l.bcnt (emitBytes l code false)) ++
        lowBits (emitLzw l code false).nbits.toNat (emitLzw l code false).acc.toNat =
      codeBits (codes ++ [(code, l.width)]) := by
  rw [beatBits_append, List.append_assoc, beatBits_emitBytes h hfit, ← List.append_assoc, hbits, codeBits_append,
    codeBits_singleton]

theorem exec_lzwPut_keeps_packed {k : Symbol} {s t : State} {older : List Beat} (hactive : s.lzw.phase = .active)
    (hwf : LzwWf s.lzw) (hpacked : PackedBehind older s) (h : exec (.lzwPut k) s = .next t) : PackedBehind older t := by
  obtain ⟨newer, hout, hbits⟩ := hpacked
  obtain ⟨hp, rfl⟩ | ⟨p, hp, ⟨c, hc, rfl⟩ | ⟨hnone, hroom, rfl⟩ | ⟨hnone, hfull, rfl⟩⟩ :=
    exec_lzwPut_cases hactive h
  · exact ⟨newer, hout, hbits⟩
  · exact ⟨newer, hout, hbits⟩
  · have hfit := hwf.codeNames_fits (hwf.prefix_key p hp)
    exact ⟨_, by rw [hout, List.append_assoc], packed_emit hwf.pending hfit hbits⟩
  · have hfit := hwf.codeNames_fits (hwf.prefix_key p hp)
    have hbits' := packed_emit hwf.pending hfit hbits
    exact ⟨_, by rw [hout, List.append_assoc, List.append_assoc, ← List.append_assoc newer],
      packed_emit (hwf.emitted_pending hp) hwf.control_fits.1 hbits'⟩

/-- Behind what was output before it, `LZW.START` packs CLEAR. -/
theorem packedBehind_started (s : State) (answers : List ResponseWord) :
    PackedBehind s.out { s with
      lzw := startedLzw, codes := [(256#12, 9#4)], out := s.out ++ [0x000#10], rsp := answers } :=
  ⟨[0x000#10], rfl, (by decide : beatBits [0x000#10] ++ lowBits startedLzw.nbits.toNat startedLzw.acc.toNat =
    codeBits [(256#12, 9#4)])⟩

theorem exec_keeps_packed {i : Instr} {s t : State} (hwf : s.lzw.phase = .active → LzwWf s.lzw) (hpacked : Packed s)
    (h : exec i s = .next t) : Packed t := by
  obtain ⟨hlzw, hout, hcodes⟩ | ⟨hidle, hstart⟩ | ⟨hactive, k, hput⟩ | ⟨hactive, hfinish⟩ := exec_lzw_cases h
  · rw [Packed, hlzw, hout, hcodes]
    exact hpacked
  · obtain rfl := exec_inj (exec_lzwStart_eq hidle) hstart
    exact fun _ => ⟨s.out, packedBehind_started s _⟩
  · obtain ⟨older, hbehind⟩ := hpacked hactive
    exact fun _ => ⟨older, exec_lzwPut_keeps_packed hactive (hwf hactive) hbehind hput⟩
  · obtain rfl := exec_inj (exec_lzwFinish_of_active hactive) hfinish
    exact nofun

/-- Settles O19: START packs CLEAR, PUT keeps the bits in step, and FINISH closes the encode. -/
theorem stepKeepsCodesPacked : Obligations.StepKeepsCodesPacked := by
  intro s t hinv hpacked h
  obtain rfl | ⟨rest, rfl⟩ | ⟨op, rest, rfl⟩ | ⟨i, rest, hexec⟩ := step_cases h
  · exact hpacked
  · exact nofun
  · exact hpacked
  · exact exec_keeps_packed (s := s.setInbox rest) hinv.encode hpacked hexec

/-! ### `LZW.PUT` in numbers (R150, R156, R158) -/

/-- Settles O50. -/
theorem putInsertsString : Obligations.PutInsertsString := by
  intro k p s hactive hwf hp hnone hroom
  have hfit := hwf.codeNames_fits (hwf.prefix_key p hp)
  refine ⟨_, _, exec_lzwPut_of_room hactive hp (dictFind_none.mpr hnone) hroom.ne, rfl, rfl, ?_,
    carriesLowBits_emitBytes .., beatLast_of_mem_beatsOf (emitBytes_not_last _ _) _, ?_,
    emitLzw_nbits_toNat s.lzw p false, widen_spec _ hwf.width_bounds.2, ?_,
    nextCode_succ hroom.le, rfl⟩
  · rw [length_beatsOf, length_emitBytes, emitBits]
  · rw [length_beatsOf, length_emitBytes]
    exact emitLzw_acc_toNat hwf.pending hfit false
  · exact congrArg (fun c => s.lzw.dict ++ [⟨p, k, c⟩]) (BitVec.ofNat_toNat 12 _).symm

/-- A code above the bits of another: what is left of both when the bytes of the first are output. -/
theorem emitTotal_emitLzw {l : LzwRegs} (h : PendingWf l) {code : Code} (hfit : code.toNat < 2 ^ l.width.toNat)
    (code' : Code) :
    emitTotal l code + code'.toNat * 2 ^ emitBits l =
        emitTotal l code + code'.toNat * 2 ^ (emitBits l % 8) * 256 ^ (emitBits l / 8) ∧
      (emitTotal l code + code'.toNat * 2 ^ emitBits l) / 256 ^ (emitBits l / 8) =
        emitTotal (emitLzw l code false) code' := by
  have hsum : emitTotal l code + code'.toNat * 2 ^ emitBits l =
      emitTotal l code + code'.toNat * 2 ^ (emitBits l % 8) * 256 ^ (emitBits l / 8) := by
    rw [two_pow_eq_bytes (emitBits l)]
    ring
  refine ⟨hsum, ?_⟩
  rw [hsum, Nat.add_mul_div_right _ _ (Nat.pow_pos (by decide)), emitTotal, emitTotal, emitLzw_acc_toNat h hfit,
    emitLzw_nbits_toNat, emitTotal]

/-- Beats that carry a code behind those of another carry both. -/
theorem carriesLowBits_two_codes {l : LzwRegs} (h : PendingWf l) {code : Code} (hfit : code.toNat < 2 ^ l.width.toNat)
    (count : BitVec 8) (code' : Code) {bs : List Beat}
    (hbs : carriesLowBits bs (emitTotal (emitLzw l code false) code')) :
    carriesLowBits (beatsOf count (emitBytes l code false) ++ bs)
      (emitTotal l code + code'.toNat * 2 ^ emitBits l) := by
  obtain ⟨hsum, hdiv⟩ := emitTotal_emitLzw h hfit code'
  have hlen : (beatsOf count (emitBytes l code false)).length = emitBits l / 8 := by simp
  rw [hsum, Nat.add_mul_div_right _ _ (Nat.pow_pos (by decide))] at hdiv
  rw [hsum, ← hlen]
  refine carriesLowBits_append (carriesLowBits_emitBytes ..) ?_
  rwa [hlen, hdiv]

/-- Settles O51: the dictionary is full at the width 12, so both codes have 12 bits. -/
theorem putResetsFullDictionary : Obligations.PutResetsFullDictionary := by
  intro k p s hactive hwf hp hnone hfull
  have hfit := hwf.codeNames_fits (hwf.prefix_key p hp)
  have hle := hwf.pending_bits
  have hwidth : s.lzw.width.toNat = 12 := by rw [hwf.width_least, hfull]; rfl
  have hw : s.lzw.width = 12#4 := BitVec.eq_of_toNat_eq hwidth
  have hbits : emitBits s.lzw = s.lzw.nbits.toNat + 12 := by rw [emitBits, hwidth]
  have hbits' : emitBits (emitLzw s.lzw p false) = (s.lzw.nbits.toNat + 12) % 8 + 12 := by
    rw [emitBits_emitLzw, hwidth, hbits]
  have hcarry := carriesLowBits_two_codes hwf.pending hfit s.lzw.bcnt Config.clearCode
    (carriesLowBits_emitBytes (emitLzw s.lzw p false) Config.clearCode false (emitLzw s.lzw p false).bcnt)
  obtain ⟨-, hdiv⟩ := emitTotal_emitLzw hwf.pending hfit Config.clearCode
  rw [hbits] at hcarry hdiv
  have hexec := exec_lzwPut_of_full hactive hp (dictFind_none.mpr hnone) hfull
  rw [List.append_assoc s.out] at hexec
  obtain ⟨beats, hbeats⟩ : ∃ beats, beats = beatsOf s.lzw.bcnt (emitBytes s.lzw p false) ++
    beatsOf (emitLzw s.lzw p false).bcnt (emitBytes (emitLzw s.lzw p false) Config.clearCode false) := ⟨_, rfl⟩
  have hlen : beats.length = (s.lzw.nbits.toNat + 12) / 8 + emitBits (emitLzw s.lzw p false) / 8 := by
    rw [hbeats, List.length_append, length_beatsOf, length_beatsOf, length_emitBytes, length_emitBytes, hbits]
  rw [← hbeats] at hexec hcarry
  refine ⟨_, beats, hexec, by simp [hw], rfl, ?_, hcarry, ?_, ?_, ?_, rfl, rfl, rfl, rfl, rfl⟩
  · rw [hlen, hbits']
    omega
  · rw [hbeats]
    exact List.forall_mem_append.mpr ⟨beatLast_of_mem_beatsOf (emitBytes_not_last _ _) _,
      beatLast_of_mem_beatsOf (emitBytes_not_last _ _) _⟩
  · refine (emitLzw_acc_toNat (hwf.emitted_pending hp) hwf.control_fits.1 false).trans ?_
    rw [hlen, Nat.pow_add 256, ← Nat.div_div_eq_div_mul, ← hdiv]
    rfl
  · refine (emitLzw_nbits_toNat _ Config.clearCode false).trans ?_
    rw [hbits']
    omega

end Sys2Proof.Machine
end

section
/-! SUPPORT. `LZW.FINISH` as a whole next state (R160), the cut into sub-blocks (R82), the volume of the output (R166),
and whole encodes from START to FINISH. -/

namespace Sys2Proof.Machine

/-! ### `LZW.FINISH` (R160) -/

/-- The LZW elements after the final prefix code, if there is one. -/
def prefixLzw (l : LzwRegs) : LzwRegs :=
  match l.pfx with
  | none => l
  | some p => emitLzw l p false

/-- The bytes of the final prefix code. -/
def prefixBytes (l : LzwRegs) : List (BitVec 8 × Bool) :=
  match l.pfx with
  | none => []
  | some p => emitBytes l p false

/-- The final prefix code as it is emitted. -/
def prefixCodes (l : LzwRegs) : List (Code × BitVec 4) :=
  match l.pfx with
  | none => []
  | some p => [(p, l.width)]

/-- The bytes of END and the flush. -/
def endBytes (l : LzwRegs) : List (BitVec 8 × Bool) :=
  closingBytes (emitTotal (prefixLzw l) Config.endCode) ((emitBits (prefixLzw l) + 7) / 8)

theorem finishPrefix_insertTime_eq (s : State) :
    finishPrefix .insertTime s =
      { s with
        out := s.out ++ beatsOf s.lzw.bcnt (prefixBytes s.lzw)
        codes := s.codes ++ prefixCodes s.lzw
        lzw := prefixLzw s.lzw } := by
  cases hp : s.lzw.pfx with
  | none => simp [finishPrefix_of_none _ hp, prefixBytes, prefixCodes, prefixLzw, hp, beatsOf]
  | some p => simp [finishPrefix_insertTime_of_some hp, prefixBytes, prefixCodes, prefixLzw, hp, emit_eq]

@[simp] theorem prefixLzw_width (l : LzwRegs) : (prefixLzw l).width = l.width := by
  unfold prefixLzw
  split <;> rfl

theorem prefixLzw_bcnt (l : LzwRegs) : (prefixLzw l).bcnt = countAfter l.bcnt (prefixBytes l) := by
  cases hp : l.pfx <;> simp [prefixLzw, prefixBytes, hp, countAfter, emitLzw]

theorem exec_lzwFinish_eq {s : State} (hactive : s.lzw.phase = .active) :
    exec .lzwFinish s =
      .next { s with
        lzw := unspecifiedLzw s.freeCtr
        freeCtr := s.freeCtr + 1
        codes := s.codes ++ prefixCodes s.lzw ++ [(257#12, s.lzw.width)]
        out := s.out ++ beatsOf s.lzw.bcnt (prefixBytes s.lzw ++ endBytes s.lzw)
        rsp := s.rsp ++ [0x4200000000000000#64] } := by
  obtain ⟨l, hflush⟩ := flush_emit_closing Config.endCode (finishPrefix .insertTime s)
  rw [exec_lzwFinish_of_active hactive, finishOutput, hflush, finishPrefix_insertTime_eq, beatsOf_append,
    ← List.append_assoc, ← prefixLzw_bcnt, endBytes, ← prefixLzw_width s.lzw]
  rfl

theorem LzwWf.prefix_pending {l : LzwRegs} (h : LzwWf l) : PendingWf (prefixLzw l) := by
  cases hp : l.pfx with
  | none => simpa [prefixLzw, hp] using h.pending
  | some p => simpa [prefixLzw, hp] using h.emitted_pending hp

theorem prefixBytes_not_last (l : LzwRegs) : ∀ bf ∈ prefixBytes l, bf.2 = false := by
  cases hp : l.pfx with
  | none => simp [prefixBytes, hp]
  | some p => simpa [prefixBytes, hp] using emitBytes_not_last l p

/-- All bits that `LZW.FINISH` has to output, and how many they are. -/
theorem LzwWf.finish_carries {l : LzwRegs} (h : LzwWf l) (count count' : BitVec 8) :
    let bits := l.nbits.toNat + (match l.pfx with | none => 0 | some _ => l.width.toNat)
    let total := l.acc.toNat + (match l.pfx with | none => 0 | some p => p.toNat * 2 ^ l.nbits.toNat) + 257 * 2 ^ bits
    (prefixBytes l).length + (emitBits (prefixLzw l) + 7) / 8 = (bits + l.width.toNat + 7) / 8 ∧
      carriesLowBits (beatsOf count (prefixBytes l) ++ beatsOf count' (endBytes l)) total := by
  have hend := carriesLowBits_closingBytes (emitTotal (prefixLzw l) Config.endCode) ((emitBits (prefixLzw l) + 7) / 8)
    count'
  cases hp : l.pfx with
  | none =>
    simp only [endBytes, prefixBytes, prefixLzw, hp] at hend ⊢
    exact ⟨by simp [emitBits], hend⟩
  | some p =>
    simp only [endBytes, prefixBytes, prefixLzw, hp] at hend ⊢
    refine ⟨?_, carriesLowBits_two_codes h.pending (h.codeNames_fits (h.prefix_key p hp)) count Config.endCode hend⟩
    rw [length_emitBytes, emitBits_emitLzw, emitBits]
    omega

/-- The bytes of END end with the byte that ends the stream. -/
theorem endBytes_eq_append {l : LzwRegs} (h : LzwWf l) :
    ∃ init last, endBytes l = init ++ [(last, true)] ∧ (∀ bf ∈ init, bf.2 = false) ∧
      init.length + 1 = (emitBits (prefixLzw l) + 7) / 8 := by
  have hw := h.width_bounds.1
  have hpos : (emitBits (prefixLzw l) + 7) / 8 = (emitBits (prefixLzw l) - 1) / 8 + 1 := by
    rw [emitBits, prefixLzw_width]
    omega
  rw [endBytes, hpos]
  exact ⟨_, _, closingBytes_succ _ _, by simp, by simp⟩

/-- Settles O53. -/
theorem finishClosesEncode : Obligations.FinishClosesEncode := by
  intro s hactive hwf
  obtain ⟨init, last, hend, hinit, hlen⟩ := endBytes_eq_append hwf
  obtain ⟨hcount, hcarry⟩ := hwf.finish_carries s.lzw.bcnt (countAfter s.lzw.bcnt (prefixBytes s.lzw))
  rw [← beatsOf_append, hend, ← List.append_assoc, beatsOf_append] at hcarry
  have hexec := exec_lzwFinish_eq hactive
  rw [hend, ← List.append_assoc (prefixBytes s.lzw), beatsOf_append, ← List.append_assoc s.out] at hexec
  refine ⟨_, _, _, hexec, rfl, rfl, rfl, rfl, ⟨?_, hcarry⟩, beatLast_beat .., ?_, ?_, rfl, rfl, rfl, rfl⟩
  · rw [length_beatsOf, List.length_append, Nat.add_assoc, hlen]
    exact hcount
  · rw [beatSbLast_beat]
    exact subBlockEnds_of_last _
  · exact beatLast_of_mem_beatsOf (List.forall_mem_append.mpr ⟨prefixBytes_not_last _, hinit⟩) _

/-! ### Output volume (R166) -/

/-- Settles O54: at most 7 bits are pending and no code has more than 12. -/
theorem outputVolume : Obligations.OutputVolume := by
  refine fun s t hinv => ⟨fun hidle h => ?_, fun k hactive h => ?_, fun hactive h => ?_⟩
  · obtain rfl := exec_inj (exec_lzwStart_eq hidle) h
    simp
  · have hwf := hinv.encode hactive
    have hnbits := hwf.pending_bits
    have hwidth := hwf.width_bounds.2
    obtain ⟨hp, rfl⟩ | ⟨p, hp, ⟨c, hc, rfl⟩ | ⟨hnone, hroom, rfl⟩ | ⟨hnone, hfull, rfl⟩⟩ :=
      exec_lzwPut_cases hactive h
    · simp
    · simp
    · simp only [List.length_append, length_beatsOf, length_emitBytes, emitBits]
      omega
    · simp only [List.length_append, length_beatsOf, length_emitBytes, emitBits_emitLzw]
      rw [emitBits]
      omega
  · have hwf := hinv.encode hactive
    have hnbits := hwf.pending_bits
    obtain ⟨hlow, hhigh⟩ := hwf.width_bounds
    obtain rfl := exec_inj (exec_lzwFinish_eq hactive) h
    obtain ⟨hcount, -⟩ := hwf.finish_carries 0 0
    have hbits : (match s.lzw.pfx with | none => 0 | some _ => s.lzw.width.toNat) ≤ 12 := by
      split <;> omega
    simp only [List.length_append, length_beatsOf, endBytes, length_closingBytes, hcount]
    omega

/-! ### Sub-blocks (R82) -/

/-- Beats that the byte port puts out behind a cut stream are cut as well. -/
theorem scanSubBlocks_output {out : List Beat} {n : BitVec 8} (hn : n.toNat ≤ 254)
    (hcut : scanSubBlocks 0 out = some n.toNat) (l : List (BitVec 8 × Bool)) :
    scanSubBlocks 0 (out ++ beatsOf n l) = some (countAfter n l).toNat := by
  rw [scanSubBlocks_append, hcut]
  exact scanSubBlocks_beatsOf hn l

theorem subBlocksCut_iff_of_active {s : State} (h : s.lzw.phase = .active) :
    SubBlocksCut s ↔ scanSubBlocks 0 s.out = some s.lzw.bcnt.toNat := by
  rw [SubBlocksCut, h]

theorem subBlocksCut_iff_of_idle {s : State} (h : s.lzw.phase = .idle) :
    SubBlocksCut s ↔ scanSubBlocks 0 s.out = some 0 := by
  rw [SubBlocksCut, h]

theorem exec_lzwPut_keeps_subBlocks {k : Symbol} {s t : State} (hactive : s.lzw.phase = .active) (hwf : LzwWf s.lzw)
    (hcut : SubBlocksCut s) (h : exec (.lzwPut k) s = .next t) : SubBlocksCut t := by
  have hscan := (subBlocksCut_iff_of_active hactive).mp hcut
  obtain ⟨hp, rfl⟩ | ⟨p, hp, ⟨c, hc, rfl⟩ | ⟨hnone, hroom, rfl⟩ | ⟨hnone, hfull, rfl⟩⟩ :=
    exec_lzwPut_cases hactive h
  · exact (subBlocksCut_iff_of_active (by exact hactive)).mpr hscan
  · exact (subBlocksCut_iff_of_active (by exact hactive)).mpr hscan
  · exact (subBlocksCut_iff_of_active (by exact hactive)).mpr (scanSubBlocks_output hwf.bcnt_bound hscan _)
  · have hscan' := scanSubBlocks_output hwf.bcnt_bound hscan (emitBytes s.lzw p false)
    exact (subBlocksCut_iff_of_active (by exact hactive)).mpr
      (scanSubBlocks_output (hwf.emitted_pending hp).bcnt_bound hscan' _)

theorem exec_lzwFinish_keeps_subBlocks {s t : State} (hactive : s.lzw.phase = .active) (hwf : LzwWf s.lzw)
    (hcut : SubBlocksCut s) (h : exec .lzwFinish s = .next t) : SubBlocksCut t := by
  have hscan := (subBlocksCut_iff_of_active hactive).mp hcut
  obtain ⟨init, last, hend, -, -⟩ := endBytes_eq_append hwf
  obtain rfl := exec_inj (exec_lzwFinish_eq hactive) h
  refine (subBlocksCut_iff_of_idle (unspecifiedLzw_phase _)).mpr
    ((scanSubBlocks_output hwf.bcnt_bound hscan _).trans ?_)
  rw [hend, ← List.append_assoc, countAfter_of_last]
  rfl

theorem exec_keeps_subBlocks {i : Instr} {s t : State} (hwf : s.lzw.phase = .active → LzwWf s.lzw)
    (hcut : SubBlocksCut s) (h : exec i s = .next t) : SubBlocksCut t := by
  obtain ⟨hlzw, hout, -⟩ | ⟨hidle, hstart⟩ | ⟨hactive, k, hput⟩ | ⟨hactive, hfinish⟩ := exec_lzw_cases h
  · rw [SubBlocksCut, hlzw, hout]
    exact hcut
  · obtain rfl := exec_inj (exec_lzwStart_eq hidle) hstart
    refine (subBlocksCut_iff_of_active rfl).mpr ?_
    rw [scanSubBlocks_append, (subBlocksCut_iff_of_idle hidle).mp hcut]
    rfl
  · exact exec_lzwPut_keeps_subBlocks hactive (hwf hactive) hcut hput
  · exact exec_lzwFinish_keeps_subBlocks hactive (hwf hactive) hcut hfinish

/-- Settles O20: every command's beats are cut from where `BCNT` stands, and FINISH closes the last sub-block. -/
theorem stepKeepsSubBlocks : Obligations.StepKeepsSubBlocks := by
  intro s t hinv hcut h
  obtain rfl | ⟨rest, rfl⟩ | ⟨op, rest, rfl⟩ | ⟨i, rest, hexec⟩ := step_cases h
  · exact hcut
  · exact (subBlocksCut_iff_of_idle rfl).mpr rfl
  · exact hcut
  · exact exec_keeps_subBlocks (s := s.setInbox rest) hinv.encode hcut hexec

/-! ### Whole encodes (R163) -/

theorem runInstrs_append (is js : List Instr) (s : State) :
    runInstrs (is ++ js) s = (runInstrs is s).bind (runInstrs js) := by
  induction is generalizing s with
  | nil => rfl
  | cons i is ih =>
    obtain ⟨t, hexec, -⟩ := exec_answersAs i s
    rw [List.cons_append, runInstrs_cons hexec, runInstrs_cons hexec, ih]

/-- What every `LZW.PUT` keeps of the symbols consumed so far holds after a run of them. -/
theorem runInstrs_puts {P : List Symbol → State → Prop}
    (hput : ∀ done k s t, s.lzw.phase = .active → LzwWf s.lzw → P done s → exec (.lzwPut k) s = .next t →
      P (done ++ [k]) t)
    (input done : List Symbol) {s : State} (hactive : s.lzw.phase = .active) (hwf : LzwWf s.lzw) (hP : P done s) :
    ∃ t, runInstrs (input.map .lzwPut) s = some t ∧ t.lzw.phase = .active ∧ LzwWf t.lzw ∧ P (done ++ input) t := by
  induction input generalizing done s with
  | nil => exact ⟨s, rfl, hactive, hwf, by rwa [List.append_nil]⟩
  | cons k input ih =>
    obtain ⟨u, hexec, -, hactive', -⟩ := putCountsSymbol k s hactive
    obtain ⟨t, hrun, ht⟩ := ih (done ++ [k]) hactive' (exec_lzwPut_keeps_wf hactive hwf hexec)
      (hput done k s u hactive hwf hP hexec)
    rw [List.append_assoc, List.singleton_append] at ht
    exact ⟨t, by rw [List.map_cons, runInstrs_cons hexec, hrun], ht⟩

/-- What holds right after `LZW.START` and is kept by every `LZW.PUT` holds in the encode of any input. -/
theorem runInstrs_start_puts {P : List Symbol → State → Prop} {s : State} (hidle : s.lzw.phase = .idle)
    (hstart : ∀ t, exec .lzwStart s = .next t → P [] t)
    (hput : ∀ done k s t, s.lzw.phase = .active → LzwWf s.lzw → P done s → exec (.lzwPut k) s = .next t →
      P (done ++ [k]) t) (input : List Symbol) :
    ∃ t, runInstrs (.lzwStart :: input.map .lzwPut) s = some t ∧ t.lzw.phase = .active ∧ LzwWf t.lzw ∧ P input t := by
  have hexec := exec_lzwStart_eq hidle
  rw [runInstrs_cons hexec]
  exact runInstrs_puts hput input [] rfl startedLzw_wf (hstart _ hexec)

theorem runInstrs_lzwEncode {input : List Symbol} {s t u : State}
    (hrun : runInstrs (.lzwStart :: input.map .lzwPut) s = some t) (hexec : exec .lzwFinish t = .next u) :
    runInstrs (lzwEncode input) s = some u := by
  rw [lzwEncode, runInstrs_append, hrun, Option.bind_some, runInstrs_cons hexec, runInstrs_nil]

/-- The bytes of `LZW.FINISH` behind those of the encode are all its codes, zero filled. -/
theorem beatBits_finish {l : LzwRegs} (h : LzwWf l) {newer : List Beat} {codes : List (Code × BitVec 4)}
    (hbits : beatBits newer ++ lowBits l.nbits.toNat l.acc.toNat = codeBits codes) :
    ∃ fill < 8, beatBits (newer ++ beatsOf l.bcnt (prefixBytes l ++ endBytes l)) =
      codeBits (codes ++ prefixCodes l ++ [(257#12, l.width)]) ++ List.replicate fill false := by
  have hprefix : beatBits (newer ++ beatsOf l.bcnt (prefixBytes l)) ++
      lowBits (prefixLzw l).nbits.toNat (prefixLzw l).acc.toNat = codeBits (codes ++ prefixCodes l) := by
    cases hp : l.pfx with
    | none => simpa [prefixBytes, prefixLzw, prefixCodes, hp, beatsOf] using hbits
    | some p =>
      simpa only [prefixBytes, prefixLzw, prefixCodes, hp] using
        packed_emit h.pending (h.codeNames_fits (h.prefix_key p hp)) hbits
  have hend := beatBits_closingBytes h.prefix_pending (code := Config.endCode)
    (by rw [prefixLzw_width]; exact h.control_fits.2) (countAfter l.bcnt (prefixBytes l))
  refine ⟨8 * ((emitBits (prefixLzw l) + 7) / 8) - emitBits (prefixLzw l), by omega, ?_⟩
  rw [beatsOf_append, ← List.append_assoc, beatBits_append, endBytes, hend, ← List.append_assoc, ← List.append_assoc,
    hprefix, prefixLzw_width, codeBits_append (codes ++ prefixCodes l), codeBits_singleton]
  rfl

/-- Behind the beats `older` no codestream has ended. -/
def OpenBehind (older : List Beat) (s : State) : Prop :=
  ∃ newer, s.out = older ++ newer ∧ ∀ b ∈ newer, beatLast b = false

theorem OpenBehind.append {older : List Beat} {s t : State} (h : OpenBehind older s) {beats : List Beat}
    (hout : t.out = s.out ++ beats) (hbeats : ∀ b ∈ beats, beatLast b = false) : OpenBehind older t := by
  obtain ⟨newer, hs, hnewer⟩ := h
  exact ⟨newer ++ beats, by rw [hout, hs, List.append_assoc], List.forall_mem_append.mpr ⟨hnewer, hbeats⟩⟩

theorem exec_lzwPut_keeps_open {k : Symbol} {s t : State} {older : List Beat} (hactive : s.lzw.phase = .active)
    (hopen : OpenBehind older s) (h : exec (.lzwPut k) s = .next t) : OpenBehind older t := by
  obtain ⟨hp, rfl⟩ | ⟨p, hp, ⟨c, hc, rfl⟩ | ⟨hnone, hroom, rfl⟩ | ⟨hnone, hfull, rfl⟩⟩ :=
    exec_lzwPut_cases hactive h
  · exact hopen
  · exact hopen
  · exact hopen.append rfl (beatLast_of_mem_beatsOf (emitBytes_not_last _ _) _)
  · exact hopen.append (List.append_assoc ..) (List.forall_mem_append.mpr
      ⟨beatLast_of_mem_beatsOf (emitBytes_not_last _ _) _, beatLast_of_mem_beatsOf (emitBytes_not_last _ _) _⟩)

/-- An encode of any input, before FINISH: its bytes are packed behind what was output before, none marked the last. -/
theorem runInstrs_start_puts_packed {s : State} (hidle : s.lzw.phase = .idle) (input : List Symbol) :
    ∃ t, runInstrs (.lzwStart :: input.map .lzwPut) s = some t ∧ t.lzw.phase = .active ∧ LzwWf t.lzw ∧
      PackedBehind s.out t ∧ OpenBehind s.out t := by
  refine runInstrs_start_puts (P := fun _ t => PackedBehind s.out t ∧ OpenBehind s.out t) hidle (fun t h => ?_)
    (fun _ _ _ _ hactive hwf ⟨hpacked, hopen⟩ h =>
      ⟨exec_lzwPut_keeps_packed hactive hwf hpacked h, exec_lzwPut_keeps_open hactive hopen h⟩) input
  obtain rfl := exec_inj (exec_lzwStart_eq hidle) h
  exact ⟨packedBehind_started s _, [0x000#10], rfl, by decide⟩

/-- Settles O59: START and every PUT keep the bytes packed behind the old output, and FINISH outputs the rest. -/
theorem encodeBytesCarryCodes : Obligations.EncodeBytesCarryCodes := by
  intro input s hidle
  obtain ⟨t, hrun, hactive, hwf, ⟨newer, hout, hbits⟩, newer', hout', hopen⟩ := runInstrs_start_puts_packed hidle input
  obtain rfl : newer = newer' := List.append_cancel_left (hout.symm.trans hout')
  obtain ⟨fill, hfill, hbytes⟩ := beatBits_finish hwf hbits
  obtain ⟨u, beats, final, hexec, hphase, -, -, houtu, -, hlast, hsb, hothers, -⟩ := finishClosesEncode t hactive hwf
  have hu := exec_inj (exec_lzwFinish_eq hactive) hexec
  have hrest : t.out ++ beatsOf t.lzw.bcnt (prefixBytes t.lzw ++ endBytes t.lzw) = t.out ++ (beats ++ [final]) := by
    rw [← List.append_assoc, ← houtu, ← hu]
  refine ⟨u, newer ++ beats, final, fill, runInstrs_lzwEncode hrun hexec, hphase, ?_, hfill, ?_, hlast, hsb,
    List.forall_mem_append.mpr ⟨hopen, hothers⟩⟩
  · rw [houtu, hout, List.append_assoc s.out]
  · rw [List.append_assoc, ← List.append_cancel_left hrest, hbytes, ← hu]

end Sys2Proof.Machine
end

section
/-! SUPPORT. The strings of the dictionary (R47, R52): every code that names a string has one, and `LZW.PUT` loses and
doubles no symbol (R163). -/

namespace Sys2Proof.Machine

/-! ### The rows of a well-formed dictionary (R26, R33) -/

theorem LzwWf.length_dict {l : LzwRegs} (h : LzwWf l) : l.dict.length = l.nextCode.toNat - 258 := by
  simpa using congrArg List.length h.codes_exact

/-- The rows have the codes from 258 on, in order. -/
theorem LzwWf.code_getElem {l : LzwRegs} (h : LzwWf l) {i : Nat} (hi : i < l.dict.length) :
    l.dict[i].code.toNat = 258 + i := by
  have hcodes := congrArg (·[i]?) h.codes_exact
  have hi' : i < l.nextCode.toNat - 258 := h.length_dict ▸ hi
  simpa [hi, hi'] using hcodes

/-- A code that names a string is a literal's or a row's. -/
theorem LzwWf.literal_or_row {l : LzwRegs} (h : LzwWf l) {c : Code} (hc : codeNames l.nextCode.toNat c) :
    c.toNat < 256 ∨ ∃ row ∈ l.dict, row.code = c := by
  refine hc.imp_right fun ⟨hlow, hlt⟩ => ?_
  have hi : c.toNat - 258 < l.dict.length := by
    rw [h.length_dict]
    omega
  refine ⟨l.dict[c.toNat - 258], List.getElem_mem hi, BitVec.eq_of_toNat_eq ?_⟩
  rw [h.code_getElem hi]
  omega

theorem LzwWf.codes_nodup {l : LzwRegs} (h : LzwWf l) : (l.dict.map fun row => row.code.toNat).Nodup := by
  rw [h.codes_exact]
  exact List.nodup_range'

theorem LzwWf.rowOf?_of_mem {l : LzwRegs} (h : LzwWf l) {row : DictRow} (hrow : row ∈ l.dict) :
    rowOf? l.dict row.code = some row := by
  cases hfind : rowOf? l.dict row.code with
  | none => exact absurd (beq_self_eq_true row.code) (List.find?_eq_none.mp hfind row hrow)
  | some row' =>
    have hcode : row'.code = row.code := eq_of_beq (List.find?_some (p := fun r : DictRow => r.code == row.code) hfind)
    have hsame := List.inj_on_of_nodup_map h.codes_nodup (List.mem_of_find?_eq_some hfind) hrow
      (congrArg BitVec.toNat hcode)
    rw [hsame]

/-- The prefix code of a row names an older string (R33(b)). -/
theorem LzwWf.pcode_of_mem {l : LzwRegs} (h : LzwWf l) {row : DictRow} (hrow : row ∈ l.dict) :
    codeNames l.nextCode.toNat row.pcode ∧ row.pcode.toNat < row.code.toNat ∧ 258 ≤ row.code.toNat ∧
      row.code.toNat < l.nextCode.toNat := by
  have hmem : row.code.toNat ∈ l.dict.map fun row => row.code.toNat := List.mem_map_of_mem hrow
  rw [h.codes_exact, List.mem_range'_1] at hmem
  have hclosed := h.rows_closed row hrow
  refine ⟨codeNames_mono (by omega) hclosed, ?_, by omega, by omega⟩
  obtain hliteral | ⟨-, hlt⟩ := hclosed <;> omega

/-! ### The string of a code (R47, R52) -/

theorem stringOf_of_literal (dict : List DictRow) (fuel : Nat) {c : Code} (hc : c.toNat < 256) :
    stringOf dict (fuel + 1) c = some [c.setWidth 8] :=
  if_pos hc

theorem LzwWf.stringOf_of_mem {l : LzwRegs} (h : LzwWf l) {row : DictRow} (hrow : row ∈ l.dict) (fuel : Nat) :
    stringOf l.dict (fuel + 1) row.code = (stringOf l.dict fuel row.pcode).map fun str => str ++ [row.sym] := by
  have hnot : ¬ row.code.toNat < 256 := by
    obtain ⟨-, -, hlow, -⟩ := h.pcode_of_mem hrow
    omega
  rw [stringOf, if_neg hnot, h.rowOf?_of_mem hrow, Option.bind_some]

/-- A code has one string, found with any fuel for the rows up to it. -/
theorem LzwWf.exists_stringOf {l : LzwRegs} (h : LzwWf l) {c : Code} (hc : codeNames l.nextCode.toNat c) :
    ∃ str, str ≠ [] ∧ ∀ fuel, c.toNat ≤ fuel + 257 → stringOf l.dict (fuel + 1) c = some str := by
  induction hn : c.toNat using Nat.strong_induction_on generalizing c with
  | _ n ih =>
    subst hn
    obtain hliteral | ⟨row, hrow, rfl⟩ := h.literal_or_row hc
    · exact ⟨_, List.cons_ne_nil _ _, fun fuel _ => stringOf_of_literal _ _ hliteral⟩
    · obtain ⟨hpcode, hlt, hlow, -⟩ := h.pcode_of_mem hrow
      obtain ⟨str, -, hstr⟩ := ih _ hlt hpcode rfl
      refine ⟨str ++ [row.sym], by simp, fun fuel hfuel => ?_⟩
      cases fuel with
      | zero => omega
      | succ fuel => rw [h.stringOf_of_mem hrow, hstr fuel (by omega), Option.map_some]

theorem LzwWf.exists_codeString {l : LzwRegs} (h : LzwWf l) {c : Code} (hc : codeNames l.nextCode.toNat c) :
    ∃ str, str ≠ [] ∧ codeString l.dict c = some str := by
  obtain ⟨str, hne, hstr⟩ := h.exists_stringOf hc
  refine ⟨str, hne, hstr _ ?_⟩
  have hlow := h.next_range.1
  rw [h.length_dict]
  obtain hliteral | ⟨-, hlt⟩ := hc <;> omega

theorem codeString_of_literal (dict : List DictRow) {c : Code} (hc : c.toNat < 256) :
    codeString dict c = some [c.setWidth 8] :=
  stringOf_of_literal _ _ hc

@[simp] theorem codeString_literalCode (dict : List DictRow) (k : Symbol) :
    codeString dict (literalCode k) = some [k] := by
  rw [codeString_of_literal dict (by rw [literalCode_toNat]; exact k.isLt)]
  simp [literalCode]

/-- The string of a row is the string of its prefix code and its symbol. -/
theorem LzwWf.codeString_of_mem {l : LzwRegs} (h : LzwWf l) {row : DictRow} (hrow : row ∈ l.dict) :
    codeString l.dict row.code = (codeString l.dict row.pcode).map fun str => str ++ [row.sym] := by
  obtain ⟨hpcode, hlt, -, hhigh⟩ := h.pcode_of_mem hrow
  obtain ⟨str, -, hstr⟩ := h.exists_stringOf hpcode
  have hlen := h.length_dict
  obtain ⟨n, hn⟩ : ∃ n, l.dict.length = n + 1 := Nat.exists_eq_succ_of_ne_zero (List.length_pos_of_mem hrow).ne'
  rw [codeString, codeString, h.stringOf_of_mem hrow, hn, hstr n (by omega), hstr (n + 1) (by omega)]

/-- A row appended leaves the strings of the older codes as they are. -/
theorem LzwWf.codeString_append {l l' : LzwRegs} (h : LzwWf l) (h' : LzwWf l') {row : DictRow}
    (hdict : l'.dict = l.dict ++ [row]) {c : Code} (hc : codeNames l.nextCode.toNat c) :
    codeString l'.dict c = codeString l.dict c := by
  induction hn : c.toNat using Nat.strong_induction_on generalizing c with
  | _ n ih =>
    subst hn
    obtain hliteral | ⟨row', hrow, rfl⟩ := h.literal_or_row hc
    · rw [codeString_of_literal _ hliteral, codeString_of_literal _ hliteral]
    · obtain ⟨hpcode, hlt, -, -⟩ := h.pcode_of_mem hrow
      have hrow' : row' ∈ l'.dict := hdict ▸ List.mem_append_left _ hrow
      rw [h'.codeString_of_mem hrow', h.codeString_of_mem hrow, ih _ hlt hpcode rfl]

theorem prefixString_of_none {l : LzwRegs} (hp : l.pfx = none) : prefixString l = some [] := by
  simp only [prefixString, hp]

theorem prefixString_of_some {l : LzwRegs} {p : Code} (hp : l.pfx = some p) :
    prefixString l = codeString l.dict p := by
  simp only [prefixString, hp]

/-- A known extension is the pending string and the symbol. -/
theorem LzwWf.codeString_of_dictFind {l : LzwRegs} (h : LzwWf l) {p c : Code} {k : Symbol}
    (hc : dictFind l.dict p k = some c) : codeString l.dict c = (codeString l.dict p).map fun str => str ++ [k] :=
  h.codeString_of_mem (dictFind_some hc)

theorem LzwWf.exists_prefixString {l : LzwRegs} (h : LzwWf l) : ∃ str, prefixString l = some str := by
  cases hp : l.pfx with
  | none => exact ⟨[], prefixString_of_none hp⟩
  | some p =>
    obtain ⟨str, -, hstr⟩ := h.exists_codeString (h.prefix_key p hp)
    exact ⟨str, (prefixString_of_some hp).trans hstr⟩

theorem LzwWf.width_of_full {l : LzwRegs} (h : LzwWf l) (hfull : l.nextCode.toNat = 4096) : l.width = 12#4 := by
  refine BitVec.eq_of_toNat_eq ?_
  rw [h.width_least, hfull]
  rfl

/-- Settles O52. -/
theorem putConservesSymbols : Obligations.PutConservesSymbols := by
  intro k s t hactive hwf h
  obtain ⟨old, hold⟩ := hwf.exists_prefixString
  obtain ⟨hp, rfl⟩ | ⟨p, hp, ⟨c, hc, rfl⟩ | ⟨hnone, hroom, rfl⟩ | ⟨hnone, hfull, rfl⟩⟩ :=
    exec_lzwPut_cases hactive h
  · obtain rfl := Option.some.inj ((prefixString_of_none hp).symm.trans hold)
    exact ⟨[], [k], [], hold, codeString_literalCode _ k, (List.append_nil _).symm, .inl ⟨rfl, rfl⟩⟩
  · refine ⟨old, old ++ [k], [], hold, ?_, (List.append_nil _).symm, .inl ⟨rfl, rfl⟩⟩
    rw [prefixString_of_some hp] at hold
    exact (hwf.codeString_of_dictFind hc).trans (by rw [hold, Option.map_some])
  · exact ⟨old, [k], _, hold, codeString_literalCode _ k, rfl, .inr ⟨p, [], rfl, .inl rfl,
      (prefixString_of_some hp).symm.trans hold, rfl⟩⟩
  · exact ⟨old, [k], _, hold, codeString_literalCode _ k, List.append_assoc .., .inr ⟨p, _, rfl,
      .inr (by rw [hwf.width_of_full hfull]; rfl), (prefixString_of_some hp).symm.trans hold, rfl⟩⟩

end Sys2Proof.Machine
end

section
/-! SUPPORT. The reading side of the codestream (R163, R164; 93 G1): the reference decoder reads every code at the width
it expects, one row behind the compressor. -/

namespace Sys2Proof.Machine

/-! ### The reference decoder beside the compressor -/

theorem decoderRun_append (cs cs' : List (Code × BitVec 4)) (d : DecoderState) :
    decoderRun (cs ++ cs') d = (decoderRun cs d).bind (decoderRun cs') := by
  induction cs generalizing d with
  | nil => rfl
  | cons c cs ih => simp only [List.cons_append, decoderRun, Option.bind_assoc, ih]

@[simp] theorem decoderRun_singleton (c : Code × BitVec 4) (d : DecoderState) :
    decoderRun [c] d = decoderRead d c := by
  cases hread : decoderRead d c <;> simp [decoderRun, hread]

/-- How the decoder stands to the compressor: it reads at the compressor's width and knows the strings of all rows but
the newest, of which it holds the prefix and the pending string begins with the symbol. -/
structure Follows (l : LzwRegs) (d : DecoderState) (pending : List Symbol) : Prop where
  width : d.width = l.width.toNat
  pendingString : prefixString l = some pending
  table : (l.dict = [] ∧ d.table = [] ∧ d.prev = none) ∨
    ∃ rows last prev, l.dict = rows ++ [last] ∧
      d.table.map some = rows.map (fun row => codeString l.dict row.code) ∧
      d.prev = some prev ∧ codeString l.dict last.pcode = some prev ∧ pending.head? = some last.sym

/-- The decoder reads the pending code as the pending string: a known string, or, of the newest row, the previous
string and its own first symbol. -/
theorem Follows.decoderString_eq {l : LzwRegs} {d : DecoderState} {pending : List Symbol} (hf : Follows l d pending)
    (h : LzwWf l) {p : Code} (hp : l.pfx = some p) : decoderString d p = some pending := by
  have hpending := (prefixString_of_some hp).symm.trans hf.pendingString
  have hnames := h.prefix_key p hp
  by_cases hliteral : p.toNat < 256
  · rw [← hpending, codeString_of_literal _ hliteral, decoderString, if_pos hliteral]
  obtain ⟨hlow, hlt⟩ := hnames.resolve_left hliteral
  have hlen := h.length_dict
  have hi : p.toNat - 258 < l.dict.length := by omega
  have hcode : l.dict[p.toNat - 258].code = p := by
    refine BitVec.eq_of_toNat_eq ?_
    rw [h.code_getElem hi]
    omega
  obtain ⟨hnil, -, -⟩ | ⟨rows, last, prev, hdict, htable, hprev, hlast, hhead⟩ := hf.table
  · simp [hnil] at hi
  have hcount : d.table.length = rows.length := by simpa using congrArg List.length htable
  have hlen' : l.dict.length = rows.length + 1 := by simp [hdict]
  rw [decoderString, if_neg hliteral, if_neg (by omega)]
  rcases lt_or_ge (p.toNat - 258) rows.length with hknown | hnewest
  · have hrow : rows[p.toNat - 258].code = p := by
      rwa [List.getElem_of_eq hdict hi, List.getElem_append_left hknown] at hcode
    have hentry := congrArg (·[p.toNat - 258]?) htable
    simp only [List.getElem?_map, List.getElem?_eq_getElem hknown, Option.map_some, hrow, hpending] at hentry
    obtain ⟨str, hstr, heq⟩ := Option.map_eq_some_iff.mp hentry
    rw [hstr, ← Option.some.inj heq]
  · have hindex : p.toNat - 258 = rows.length := by omega
    have hlastcode : last.code = p := by
      rw [List.getElem_of_eq hdict hi, List.getElem_append_right hnewest] at hcode
      simpa [hindex] using hcode
    have hnone : d.table[p.toNat - 258]? = none := List.getElem?_eq_none (by omega)
    have hstring := h.codeString_of_mem (row := last) (by simp [hdict])
    rw [hlastcode, hpending, hlast, Option.map_some] at hstring
    obtain rfl := Option.some.inj hstring
    obtain ⟨str, hne, hstr⟩ := h.exists_codeString (h.pcode_of_mem (row := last) (by simp [hdict])).1
    obtain rfl := Option.some.inj (hlast.symm.trans hstr)
    rw [hnone, hprev]
    cases prev with
    | nil => exact absurd rfl hne
    | cons x xs =>
      obtain rfl : x = last.sym := by simpa using hhead
      have hnext : p.toNat = 258 + d.table.length := by omega
      simp [hnext]

/-- The width the decoder reads with next: it grows with the row that the compressor appends behind the code. -/
theorem LzwWf.widen_eq_grown {l : LzwRegs} (h : LzwWf l) :
    (widen l.nextCode l.width).toNat =
      if l.nextCode.toNat = 2 ^ l.width.toNat ∧ l.width.toNat < 12 then l.width.toNat + 1 else l.width.toNat := by
  have hle := le_two_pow_widthFor h.next_range.2
  rw [← h.width_least] at hle
  have hiff : 2 ^ l.width.toNat ≤ l.nextCode.toNat ↔ l.nextCode.toNat = 2 ^ l.width.toNat :=
    ⟨le_antisymm hle, fun heq => heq.ge⟩
  simp only [widen_spec _ h.width_bounds.2, hiff]

/-- What the decoder is after the pending code: it has produced the pending string, knows the strings of all rows, and
reads with the width of an insertion. -/
structure HasRead (l : LzwRegs) (pending : List Symbol) (d d' : DecoderState) : Prop where
  out : d'.out = d.out ++ pending
  prev : d'.prev = some pending
  table : d'.table.map some = l.dict.map fun row => codeString l.dict row.code
  width : d'.width = (widen l.nextCode l.width).toNat

/-- The decoder reads the pending code at the compressor's width. -/
theorem Follows.decoderRead_eq {l : LzwRegs} {d : DecoderState} {pending : List Symbol} (hf : Follows l d pending)
    (h : LzwWf l) {p : Code} (hp : l.pfx = some p) :
    ∃ d', decoderRead d (p, l.width) = some d' ∧ HasRead l pending d d' := by
  have hnotClear : p ≠ Config.clearCode := by
    rintro rfl
    have hclear : Config.clearCode.toNat = 256 := rfl
    obtain hliteral | ⟨hlow, -⟩ := h.prefix_key _ hp <;> omega
  have hread := hf.decoderString_eq h hp
  have hwiden := h.widen_eq_grown
  have hlen := h.length_dict
  obtain ⟨hlow, hhigh⟩ := h.next_range
  obtain ⟨hnil, htable, hprev⟩ | ⟨rows, last, prev, hdict, htable, hprev, hlast, hhead⟩ := hf.table
  · have hnext : l.nextCode.toNat = 258 := by
      rw [hnil, List.length_nil] at hlen
      omega
    have hwidth : l.width.toNat = 9 := by
      rw [h.width_least, hnext]
      rfl
    refine ⟨{ d with prev := some pending, out := d.out ++ pending }, ?_, rfl, rfl, by simp [htable, hnil], ?_⟩
    · simp [decoderRead, hf.width, hnotClear, hread, hprev]
    · rw [hwiden, hnext, hwidth, hf.width, hwidth]
      rfl
  · have hcount : d.table.length = rows.length := by simpa using congrArg List.length htable
    have hlen' : l.dict.length = rows.length + 1 := by simp [hdict]
    have hroom : 258 + d.table.length < 4096 := by omega
    have hnext : 258 + (d.table.length + 1) = l.nextCode.toNat := by omega
    have htake : pending.take 1 = [last.sym] := by rw [List.take_one, hhead, Option.toList_some]
    have hstring := h.codeString_of_mem (row := last) (by simp [hdict])
    rw [hlast, Option.map_some] at hstring
    have hrows := congrArg (List.map fun row => codeString l.dict row.code) hdict
    refine ⟨{ table := d.table ++ [prev ++ pending.take 1], prev := some pending,
              width := (widen l.nextCode l.width).toNat, out := d.out ++ pending }, ?_, rfl, rfl, ?_, rfl⟩
    · simp [decoderRead, hf.width, hnotClear, hread, hprev, hroom, hnext, hwiden]
    · rw [hrows]
      simp [htable, htake, hstring]

/-- What the decoder has read, beside the compressor, of the codes emitted for the symbols `done`. -/
def DecoderAt (done : List Symbol) (s : State) : Prop :=
  ∃ d pending, decoderRun s.codes DecoderState.start = some d ∧ Follows s.lzw d pending ∧ d.out ++ pending = done

theorem follows_started : Follows startedLzw DecoderState.start [] where
  width := rfl
  pendingString := rfl
  table := .inl ⟨rfl, rfl, rfl⟩

/-- With nothing emitted the pending string grows by the symbol. -/
theorem Follows.movePfx {l : LzwRegs} {d : DecoderState} {pending : List Symbol} (hf : Follows l d pending) {c : Code}
    {k : Symbol} (n : Nat) (hc : codeString l.dict c = some (pending ++ [k])) :
    Follows { l with pfx := some c, nsym := n } d (pending ++ [k]) where
  width := hf.width
  pendingString := hc
  table := hf.table.imp_right fun ⟨rows, last, prev, hdict, htable, hprev, hlast, hhead⟩ =>
    ⟨rows, last, prev, hdict, htable, hprev, hlast, by rw [List.head?_append, hhead, Option.some_or]⟩

/-- After an insertion the decoder lacks the new row alone. -/
theorem HasRead.follows_inserted {l : LzwRegs} {pending : List Symbol} {d d' : DecoderState}
    (hr : HasRead l pending d d') (h : LzwWf l) {p : Code} {k : Symbol} (hp : l.pfx = some p)
    (hpending : codeString l.dict p = some pending) (h' : LzwWf (insertedLzw l p k)) :
    Follows (insertedLzw l p k) d' [k] where
  width := hr.width
  pendingString := codeString_literalCode _ k
  table := by
    refine .inr ⟨l.dict, _, pending, rfl, ?_, hr.prev, ?_, rfl⟩
    · rw [hr.table]
      exact List.map_congr_left fun row hrow => (h.codeString_append h' rfl (h.codeNames_of_mem hrow)).symm
    · exact (h.codeString_append h' rfl (h.prefix_key p hp)).trans hpending

/-- CLEAR brings the decoder back to its start, with what it has produced. -/
theorem decoderRead_clear {d : DecoderState} {w : BitVec 4} (h : d.width = w.toNat) :
    decoderRead d (256#12, w) = some { d with table := [], prev := none, width := 9 } := by
  simp [decoderRead, h, Config.clearCode]

theorem exec_lzwPut_keeps_decoderAt {done : List Symbol} {k : Symbol} {s t : State} (hactive : s.lzw.phase = .active)
    (hwf : LzwWf s.lzw) (hat : DecoderAt done s) (h : exec (.lzwPut k) s = .next t) : DecoderAt (done ++ [k]) t := by
  obtain ⟨d, pending, hrun, hf, hdone⟩ := hat
  have hgrown : d.out ++ (pending ++ [k]) = done ++ [k] := by rw [← List.append_assoc, hdone]
  obtain ⟨hp, rfl⟩ | ⟨p, hp, ⟨c, hc, rfl⟩ | ⟨hnone, hroom, rfl⟩ | ⟨hnone, hfull, rfl⟩⟩ :=
    exec_lzwPut_cases hactive h
  · obtain rfl : [] = pending := Option.some.inj ((prefixString_of_none hp).symm.trans hf.pendingString)
    exact ⟨d, _, hrun, hf.movePfx _ (codeString_literalCode _ k), hgrown⟩
  · have hpending := (prefixString_of_some hp).symm.trans hf.pendingString
    have hstring : codeString s.lzw.dict c = some (pending ++ [k]) := by
      rw [hwf.codeString_of_dictFind hc, hpending, Option.map_some]
    exact ⟨d, _, hrun, hf.movePfx _ hstring, hgrown⟩
  · have hpending := (prefixString_of_some hp).symm.trans hf.pendingString
    obtain ⟨d', hread, hr⟩ := hf.decoderRead_eq hwf hp
    refine ⟨d', [k], ?_, hr.follows_inserted hwf hp hpending (hwf.inserted hp hnone hroom), ?_⟩
    · rw [decoderRun_append, hrun, Option.bind_some, decoderRun_singleton, hread]
    · rw [hr.out, hdone]
  · obtain ⟨d', hread, hr⟩ := hf.decoderRead_eq hwf hp
    have hwidth : d'.width = s.lzw.width.toNat := by
      rw [hr.width, hwf.widen_eq (by omega)]
    refine ⟨{ d' with table := [], prev := none, width := 9 }, [k], ?_, ⟨rfl, codeString_literalCode _ k,
      .inl ⟨rfl, rfl, rfl⟩⟩, ?_⟩
    · rw [decoderRun_append, decoderRun_append, hrun, Option.bind_some, decoderRun_singleton, hread, Option.bind_some,
        decoderRun_singleton, decoderRead_clear hwidth]
    · rw [hr.out, hdone]

/-- After START and one PUT per symbol the decoder has read all but the pending string. -/
theorem runInstrs_start_puts_decoderAt {s : State} (hidle : s.lzw.phase = .idle) (input : List Symbol) :
    ∃ t, runInstrs (.lzwStart :: input.map .lzwPut) s = some t ∧ t.lzw.phase = .active ∧ LzwWf t.lzw ∧
      DecoderAt input t := by
  refine runInstrs_start_puts hidle (fun t h => ?_) (fun _ _ _ _ => exec_lzwPut_keeps_decoderAt) input
  obtain rfl := exec_inj (exec_lzwStart_eq hidle) h
  exact ⟨DecoderState.start, [], rfl, follows_started, rfl⟩

/-- Settles O57: START and every PUT keep the decoder beside the compressor. -/
theorem decoderFollowsCompressor : Obligations.DecoderFollowsCompressor := by
  intro input s t hidle hrun
  obtain ⟨t', hrun', -, -, d, pending, hdecode, hf, hdone⟩ := runInstrs_start_puts_decoderAt hidle input
  obtain rfl : t' = t := Option.some.inj (hrun'.symm.trans hrun)
  exact ⟨d, pending, hdecode, hf.pendingString, hdone⟩

/-- Settles O58: the final prefix code is read as the pending string. -/
theorem decoderRecoversEncode : Obligations.DecoderRecoversEncode := by
  intro input s hidle
  obtain ⟨t, hrun, hactive, hwf, d, pending, hdecode, hf, hdone⟩ := runInstrs_start_puts_decoderAt hidle input
  have hencode := runInstrs_lzwEncode hrun (exec_lzwFinish_eq hactive)
  cases hp : t.lzw.pfx with
  | none =>
    obtain rfl : [] = pending := Option.some.inj ((prefixString_of_none hp).symm.trans hf.pendingString)
    refine ⟨_, t.codes ++ prefixCodes t.lzw, _, d, hencode, rfl, ?_, ?_⟩
    · simpa [prefixCodes, hp] using hdecode
    · simpa using hdone
  | some p =>
    obtain ⟨d', hread, hr⟩ := hf.decoderRead_eq hwf hp
    refine ⟨_, t.codes ++ prefixCodes t.lzw, _, d', hencode, rfl, ?_, hr.out.trans hdone⟩
    simp only [prefixCodes, hp, decoderRun_append, hdecode, Option.bind_some, decoderRun_singleton, hread]

end Sys2Proof.Machine
end
